-- ==== Sys2Proof/Word.lean ====
section
/-! DEFINITION. The datapath width and the word types (spec 00_scope R5, R8, R11). -/

namespace Sys2Proof

/-- `W = 256`, the width of every register and of the integer range (R5). -/
abbrev W : Nat := 256

/-- A register value: an unsigned integer of `W` bits (R5). -/
abbrev Word := BitVec 256

/-- One byte of the table ROM (R50). -/
abbrev Byte := BitVec 8

end Sys2Proof
end

