-- ==== Sys2Proof/Config.lean ====
section
/-! DEFINITION. What is fixed when the block is built: the constants of the format, the build parameters BLOB and MAX
(spec 00_scope R5 to R9), and the free values for what the spec leaves unspecified. -/

namespace Sys2Proof

/-- The fixed-point unity `RAY = 10^27` (R6). -/
def RAY : Nat := 10 ^ 27

/-- `HALF = RAY / 2 = 5 * 10^26`, exact because `RAY` is even (R6). -/
def HALF : Nat := RAY / 2

/-- Bytes of one table field: a delta is "an unsigned 64-bit integer" (R8). -/
abbrev fieldBytes : Nat := 8

/-- Bytes of one table word: four fields (R8). -/
abbrev wordBytes : Nat := 32

/-- The ROM's bytes as a list of cells (address, byte) in canonical form: `Memory.wf` in Machine/Memory.lean. -/
abbrev Machine.Memory := List Host.Cell

/-- The build parameters: `romBytes` is `length(BLOB)`, `rom` its bytes (R9), `max` is `MAX` (R7). -/
structure Config where
  romBytes : Nat
  rom : Machine.Memory
  max : Word
  deriving DecidableEq, Repr

/-- The free values of the working registers `wx`, `wz`, `wn` where R36 leaves them unspecified: nothing constrains
them. The argument is the draw's number (assumption log 3). -/
opaque Config.freeWord : Nat → Word

/-- The configuration `State.reset` is built with: DESIGN CHOICE, assumption log 1 (unsafe). The smallest pair that R55 admits:
`MAX = 0`, one table word, no byte listed. No statement rests on it. -/
def Config.smallest : Config := { romBytes := 32, rom := [], max := 0 }

end Sys2Proof
end

