-- ==== Sys2Proof/Machine/Memory.lean ====
section
/-! DEFINITION. The table ROM as a list of (address, byte) cells (spec 20_memory R50). There is no `MemWrite`: the ROM has
no write path (00_scope R13). The only operation that makes a ROM is the build's `ofBytes`. -/

namespace Sys2Proof.Machine

/-- What an address without a cell reads as: 0, the value R54 and R55 give the bytes that no entry fills
(assumption log 9). -/
def Memory.blank : Byte := 0

/-- One byte of the ROM. -/
def Memory.read : Memory → Nat → Byte
  | [], _ => Memory.blank
  | (k, b) :: rest, a => if k = a then b else Memory.read rest a

/-- Addresses strictly rising from `lo` on, and no cell that equals what an unlisted address reads as. -/
def Memory.canonicalFrom : Nat → Memory → Bool
  | _, [] => true
  | lo, (k, b) :: rest => decide (lo ≤ k) && (b != Memory.blank) && Memory.canonicalFrom (k + 1) rest

/-- The canonical form: equal contents are equal lists. -/
def Memory.wf (m : Memory) : Bool := Memory.canonicalFrom 0 m

/-- The cells of consecutive bytes from address `a` on. -/
def Memory.ofBytesAt : Nat → List Byte → Memory
  | _, [] => []
  | a, b :: rest =>
    if b = Memory.blank then Memory.ofBytesAt (a + 1) rest else (a, b) :: Memory.ofBytesAt (a + 1) rest

/-- The ROM that holds the byte sequence `BLOB`, first byte at address 0 (R50). -/
def Memory.ofBytes (bytes : List Byte) : Memory := Memory.ofBytesAt 0 bytes

/-- `n` bytes from address `a`, most significant byte first, as an unsigned integer (00_scope R11, R13; 20_memory R57):
the byte order is decided here and nowhere else. -/
def Memory.bigEndian (m : Memory) (a : Nat) : Nat → Nat
  | 0 => 0
  | n + 1 => Memory.bigEndian m a n * 256 + (Memory.read m (a + n)).toNat

end Sys2Proof.Machine
end

