-- ==== Sys2Proof/Machine/Table.lean ====
section
/-! DEFINITION. The packed table format: words, fields, addresses, the checks of a well-formed configuration, and the contents
the packer leaves (spec 20_memory R51 to R58; 41_packedratestore R132, R133). -/

namespace Sys2Proof.Machine

/-- `DEPTH = length(BLOB) / 32` (R9). -/
def depth (c : Config) : Nat := c.romBytes / wordBytes

/-- `MemRead(addr, n)` of R13. It requires `addr + n <= 32 * DEPTH`; elsewhere there is no byte to read. -/
def memRead (c : Config) (addr n : Nat) : Option Nat :=
  if addr + n ≤ wordBytes * depth c then some (c.rom.bigEndian addr n) else none

/-- Field `k`: the bytes `ROM[8k .. 8k+7]`, big-endian (R52). -/
def field (c : Config) (k : Nat) : Nat := c.rom.bigEndian (fieldBytes * k) fieldBytes

/-- Word `w` as an integer: in-word byte 0 is the most significant byte (R53). -/
def wordValue (c : Config) (w : Nat) : Nat := c.rom.bigEndian (wordBytes * w) wordBytes

/-- `offset = bps * 8` (R132). -/
def offset (bps : Nat) : Nat := bps * 8

/-- `wordIndex = offset / 32` (R132). -/
def wordIndex (bps : Nat) : Nat := offset bps / 32

/-- `byteInWord = offset % 32` (R132). -/
def byteInWord (bps : Nat) : Nat := offset bps % 32

/-- R55(a): `length(BLOB)` is a multiple of 32 and at least 32. -/
def sizeOk (c : Config) : Bool := c.romBytes % wordBytes == 0 && decide (wordBytes ≤ c.romBytes)

/-- R55(b): `DEPTH = ceil((MAX + 1) / 4)`. -/
def denseOk (c : Config) : Bool := depth c == (c.max.toNat + 1 + 3) / 4

/-- R55(c): fields `MAX + 1 .. 4 * DEPTH - 1` are 0. -/
def paddingOk (c : Config) : Bool :=
  (List.range (4 * depth c - (c.max.toNat + 1))).all fun j => field c (c.max.toNat + 1 + j) == 0

/-- The cells are a canonical form of `ROM[0 .. 32*DEPTH - 1]`: no cell lies outside (R50). -/
def romOk (c : Config) : Bool := c.rom.wf && c.rom.all fun cell => decide (cell.1 < c.romBytes)

/-- The delta of entry `k` of a table of rates, and 0 beyond its end (R54). -/
def packedDelta (rates : List Nat) (k : Nat) : Nat :=
  match rates[k]? with
  | some rate => rate - RAY
  | none => 0

/-- `DEPTH = ceil(E / 4)` for `E` entries (R54). -/
def packedDepth (rates : List Nat) : Nat := (rates.length + 3) / 4

/-- `ROM[8k + j] = (delta_k >> (8 * (7 - j))) mod 256` (R54), as the byte at address `a = 8k + j`. -/
def packedByte (rates : List Nat) (a : Nat) : Byte :=
  BitVec.ofNat 8 (packedDelta rates (a / 8) >>> (8 * (7 - a % 8)))

/-- The configuration built from the rates of bps 0, 1, ..., E-1: the format R54 gives the ROM, with `MAX = E - 1`. The packer
itself (its sorting and its EncodingOverflow check) is outside the block (R4); `E >= 1` and `RAY <= rate < RAY + 2^64` are its
output's properties. -/
def pack (rates : List Nat) : Config where
  romBytes := wordBytes * packedDepth rates
  rom := Memory.ofBytes ((List.range (wordBytes * packedDepth rates)).map (packedByte rates))
  max := BitVec.ofNat W (rates.length - 1)

end Sys2Proof.Machine
end

