-- ==== Sys2Proof/Syntax.lean ====
section
/-! DEFINITION. The commands of the block: one constructor per row of spec/opcode_table.json. A command carries no operand:
its operands are the registers OPA and OPB, latched at acceptance (spec 30_encoding R70, R73). -/

namespace Sys2Proof

/-- The two commands (R72). -/
inductive Instr where
  /-- POW, `x^n` at scale `RAY` (R100). -/
  | pow
  /-- LOOKUP, decode one packed table entry (R130). -/
  | lookup
  deriving DecidableEq, Repr

end Sys2Proof
end

