-- ==== Sys2Proof/WellFormed.lean ====
section
/-! DEFINITION. What is well formed: a configuration (spec 20_memory R55), and a command. -/

namespace Sys2Proof

/-- The block is built only from a pair (`BLOB`, `MAX`) that satisfies R55 (a), (b) and (c), held in canonical form. -/
def Config.wf (c : Config) : Bool :=
  Machine.sizeOk c && Machine.denseOk c && Machine.paddingOk c && Machine.romOk c

/-- Every command is well formed: a command has no operand that could be out of range (30_encoding R73), so this check refuses
nothing. -/
def Instr.wf : Instr → Bool
  | .pow => true
  | .lookup => true

end Sys2Proof
end

