-- ==== Sys2Proof/Decode.lean ====
section
/-! DEFINITION. The command word: decoder, encoder, and the decoder as the host numbers the table's bits (spec 30_encoding
R70 to R74). -/

namespace Sys2Proof

/-- Why a word is no command. -/
inductive DecodeError where
  /-- The word is neither 0x01 nor 0x02 (R71, R74); the block raises IllegalCommand (60_exceptions R154). Safe: it is the
  effect the spec gives. -/
  | illegalCommand
  deriving DecidableEq, Repr

/-- R71: the whole word is compared, so a word with `RSV != 0` is illegal. -/
def decode (v : Word) : Except DecodeError Instr :=
  if v = 0x01#256 then .ok .pow
  else if v = 0x02#256 then .ok .lookup
  else .error .illegalCommand

/-- The OP field of each command (R72). -/
def opcode : Instr → BitVec 8
  | .pow => 0x01#8
  | .lookup => 0x02#8

/-- A command word from its two fields: RSV at bits `W-1:8`, OP at bits `7:0` (R70). -/
def commandWord (rsv : BitVec 248) (op : BitVec 8) : Word := rsv ++ op

/-- The word of a command: RSV must be 0 (R70). -/
def encode (i : Instr) : Word := commandWord 0 (opcode i)

/-- The decoder on a table word: the block has one word per command, whose bit 0 is the least significant bit (R11, R70), so
the host's numbering is the word's own. A number that needs more than `W` bits is no command word. -/
def decodeTableWord (_nbits w : Nat) : Option Instr :=
  if w < 2 ^ W then (decode (BitVec.ofNat W w)).toOption else none

end Sys2Proof
end

