-- ==== Sys2Proof/Machine/State.lean ====
section
/-! DEFINITION. The machine's state as plain data, the reasons a step can stop, and the state after reset (spec 10_state). -/

namespace Sys2Proof.Machine

/-- The eight register slots of R22. -/
inductive Slot where
  | ctrl | status | opa | opb | result | maxbps | tableWords | reserved
  deriving DecidableEq, Repr

/-- The error kinds of R25 that end a command. -/
inductive ErrKind where
  /-- Raised by POW (R112). -/
  | arithmeticOverflow
  /-- Raised by LOOKUP (R131). -/
  | outOfRange
  /-- Raised by an idle CTRL write that decodes to no command (R154). -/
  | illegalCommand
  deriving DecidableEq, Repr

/-- The fields of STATUS that have storage. The reserved bits are hardwired to 0 (R24): `Status.word` puts them there. -/
structure Status where
  busy : Bool
  done : Bool
  err : BitVec 4
  deriving DecidableEq, Repr

/-- `ENG`: idle, or running a command on the operands latched at its acceptance (R35). -/
inductive Eng where
  | idle
  | run (op : Instr) (a b : Word)
  deriving DecidableEq, Repr

/-- The events of R39, in the host's notation of R21: register transactions name a slot by its 3-bit index. -/
inductive Event where
  /-- `RegWrite(idx, v)` by the host. -/
  | regWrite (idx : BitVec 3) (v : Word)
  /-- `RegRead(idx)` by the host. -/
  | regRead (idx : BitVec 3)
  /-- The Reset input (R180). -/
  | reset
  /-- The engine's turn: `Complete` where it is enabled (R39). -/
  | engine
  deriving DecidableEq, Repr

/-- The block's state (R39): the registers with storage, `ENG`, the hidden working registers of R36, the constants `cfg`; and
the model's own fields. -/
structure State where
  /-- OPA (R27). -/
  opa : Word
  /-- OPB (R28). -/
  opb : Word
  /-- RESULT (R29). -/
  result : Word
  /-- STATUS (R24). -/
  status : Status
  /-- ENG (R35). -/
  eng : Eng
  /-- The hidden working register `wx` (R36). -/
  wx : Word
  /-- The hidden working register `wz` (R36). -/
  wz : Word
  /-- The hidden working register `wn` (R36). -/
  wn : Word
  /-- The constants `BLOB` and `MAX` (R7, R9, R39): no event changes them. -/
  cfg : Config
  /-- Model's own: the events still to come in the one total order of R62 (assumption log 4). -/
  order : List Event
  /-- Model's own: what `RegRead` has returned to the host, newest first (assumption log 5). -/
  received : List (BitVec 3 × Word)
  /-- Model's own: the number of the next free value (assumption log 3). -/
  freeCount : Nat
  deriving DecidableEq, Repr

/-- The reasons a step stops with a fault. -/
inductive Fault where
  /-- Raised by LOOKUP when its field lies outside `ROM[0 .. 32*DEPTH - 1]`, where R13 gives `MemRead` no value. Safe: it
  cannot happen in a configuration that R55 admits. -/
  | romAddressAbsent
  deriving DecidableEq, Repr

/-- The reasons a step is refused. -/
inductive Refusal where
  /-- An instruction whose meaning is not written yet. Safe. No arm of `exec` answers it. -/
  | notModelled (mnemonic : String)
  /-- Raised by the step in a state whose constants violate R55: "A model ... refuses a configuration that violates this
  rule". Safe. -/
  | illFormedConfig
  deriving DecidableEq, Repr

/-- The state after reset of a block built with configuration `c`: the values of R38. `wx`, `wz` and `wn` are unspecified
there; the model names 0 (DESIGN CHOICE, assumption log 2, unsafe). -/
def State.resetWith (c : Config) : State where
  opa := 0
  opb := 0
  result := 0
  status := { busy := false, done := false, err := 0 }
  eng := .idle
  wx := 0
  wz := 0
  wn := 0
  cfg := c
  order := []
  received := []
  freeCount := 0

/-- The machine right after reset (R38, R182), built with the smallest configuration R55 admits (DESIGN CHOICE, assumption
log 1). -/
def State.reset : State := State.resetWith Config.smallest

end Sys2Proof.Machine
end

