-- ==== Sys2Proof/Machine/Flags.lean ====
section
/-! DEFINITION. The STATUS register: its word, its error codes and the forms that acceptance and completion leave (spec
10_state R24 to R26). The block has no other flag (R37). -/

namespace Sys2Proof.Machine

/-- The STATUS word of R24: bits `W-1:8` and `3:2` hardwired to 0, ERR at `7:4`, DONE at 1, BUSY at 0. -/
def Status.word (st : Status) : Word :=
  (0 : BitVec 248) ++ st.err ++ (0 : BitVec 2) ++ BitVec.ofBool st.done ++ BitVec.ofBool st.busy

/-- The code of an error kind (R25). -/
def ErrKind.code : ErrKind → BitVec 4
  | .arithmeticOverflow => 1
  | .outOfRange => 2
  | .illegalCommand => 3

/-- STATUS after reset: 0 (R38). -/
def Status.atReset : Status := { busy := false, done := false, err := 0 }

/-- STATUS from acceptance on: BUSY 1, DONE 0, ERR 0 (R23). -/
def Status.running : Status := { busy := true, done := false, err := 0 }

/-- STATUS after a completion with code `e`: DONE 1, BUSY 0 (R14). -/
def Status.finished (e : BitVec 4) : Status := { busy := false, done := true, err := e }

end Sys2Proof.Machine
end

