-- ==== Sys2Proof/Machine/Operands.lean ====
section
/-! DEFINITION. The operand forms: register slots named by a 3-bit index (spec 10_state R22) and the operands of a command
(30_encoding R73, 10_state R35). -/

namespace Sys2Proof.Machine

/-- The slot a 3-bit index names (R22). -/
def Slot.ofIdx (idx : BitVec 3) : Slot :=
  if idx = 0 then .ctrl
  else if idx = 1 then .status
  else if idx = 2 then .opa
  else if idx = 3 then .opb
  else if idx = 4 then .result
  else if idx = 5 then .maxbps
  else if idx = 6 then .tableWords
  else .reserved

/-- `idx(NAME)` of R75: the slot's number. -/
def Slot.idx : Slot → BitVec 3
  | .ctrl => 0
  | .status => 1
  | .opa => 2
  | .opb => 3
  | .result => 4
  | .maxbps => 5
  | .tableWords => 6
  | .reserved => 7

/-- The operand `a` of the command: the value latched at acceptance (R35, R73). Of an idle engine, what an acceptance would
latch now (assumption log 8). -/
def State.operandA (s : State) : Word :=
  match s.eng with
  | .run _ a _ => a
  | .idle => s.opa

/-- The operand `b` of the command, as `operandA`. -/
def State.operandB (s : State) : Word :=
  match s.eng with
  | .run _ _ b => b
  | .idle => s.opb

end Sys2Proof.Machine
end

