-- ==== Sys2Proof/Machine/Ops.lean ====
section
/-! DEFINITION. The named operations over the registers: completion and error reporting (spec 00_scope R14), acceptance
(10_state R23), the host's register transactions (R22 to R33) and the Reset event (70_reset R180). -/

namespace Sys2Proof.Machine

/-- `complete(v)` of R14: one atomic event (20_memory R63). -/
def complete (v : Word) (s : State) : State :=
  { s with result := v, status := .finished 0, eng := .idle }

/-- `raise E` of R14, the block's exception entry (60_exceptions R152): RESULT 0, the code in ERR, DONE, engine idle. It saves
nothing and transfers control nowhere. -/
def raise (e : ErrKind) (s : State) : State :=
  { s with result := 0, status := .finished e.code, eng := .idle }

/-- Acceptance of a command (R23): the operands are latched, BUSY is set, DONE and ERR are cleared, RESULT keeps its value. It
is also the only return from an error beside an IllegalCommand and a reset: there is no return command (60_exceptions R155). -/
def accept (i : Instr) (s : State) : State :=
  { s with eng := .run i s.opa s.opb, status := .running }

/-- The working registers hold unspecified values (R36): three fresh free values (assumption log 3). -/
def forgetWork (s : State) : State :=
  { s with
    wx := Config.freeWord s.freeCount
    wz := Config.freeWord (s.freeCount + 1)
    wn := Config.freeWord (s.freeCount + 2)
    freeCount := s.freeCount + 3 }

/-- `x[OPA] <- v`. -/
def State.setOpa (v : Word) (s : State) : State := { s with opa := v }

/-- `x[OPB] <- v`. -/
def State.setOpb (v : Word) (s : State) : State := { s with opb := v }

/-- The event is no longer to come: `rest` is. -/
def State.setOrder (rest : List Event) (s : State) : State := { s with order := rest }

/-- The host receives `v` from slot `idx` (R21). -/
def State.deliver (idx : BitVec 3) (v : Word) (s : State) : State :=
  { s with received := (idx, v) :: s.received }

/-- A command issue (R23): ignored while BUSY; a command word is accepted; any other word raises IllegalCommand at once
(60_exceptions R154). -/
def ctrlWrite (v : Word) (s : State) : State :=
  if s.status.busy then s
  else
    match decode v with
    | .ok i => accept i s
    | .error .illegalCommand => raise .illegalCommand s

/-- `RegWrite(idx, v)`: the effect R23 to R32 give it per slot. A write to OPA or OPB is ignored while BUSY (R27, R28); a write
to a read-only or reserved slot is always ignored (R32). -/
def regWrite (idx : BitVec 3) (v : Word) (s : State) : State :=
  match Slot.ofIdx idx with
  | .ctrl => ctrlWrite v s
  | .opa => if s.status.busy then s else s.setOpa v
  | .opb => if s.status.busy then s else s.setOpb v
  | .status => s
  | .result => s
  | .maxbps => s
  | .tableWords => s
  | .reserved => s

/-- The value `RegRead(idx)` returns (R22). CTRL and slot 7 have no storage and read as 0; MAXBPS and TABLE_WORDS are hardwired
to the build parameters. -/
def regRead (idx : BitVec 3) (s : State) : Word :=
  match Slot.ofIdx idx with
  | .ctrl => 0
  | .status => s.status.word
  | .opa => s.opa
  | .opb => s.opb
  | .result => s.result
  | .maxbps => s.cfg.max
  | .tableWords => BitVec.ofNat W (depth s.cfg)
  | .reserved => 0

/-- The Reset event (R180): the values of R38; a running command is abandoned; the ROM and MAX stay; the working registers are
left unspecified. -/
def resetEvent (s : State) : State :=
  forgetWork { s with opa := 0, opb := 0, result := 0, status := .atReset, eng := .idle }

end Sys2Proof.Machine
end

