-- ==== Sys2Proof/Machine/FixedPointPow.lean ====
section
/-! DEFINITION. FixedPointPow, the POW command (spec 40_fixedpointpow R100 to R116). The arithmetic is exact over the naturals
and takes the width as an argument (00_scope R5); the machine always passes `W`. -/

namespace Sys2Proof.Machine

/-- The two overflow checks of R101. -/
inductive Check where
  /-- Check M, "no precision loss": the product leaves the integer range (R105). -/
  | precision
  /-- Check A, "the addition did not wrap": the rounding addition leaves it (R106). -/
  | wrap
  deriving DecidableEq, Repr

/-- The checked fixed-point multiply of R101: check M, then check A, then the division (R107). -/
def mulround (w p q : Nat) : Except Check Nat :=
  if 2 ^ w ≤ p * q then .error .precision
  else if 2 ^ w ≤ p * q + HALF then .error .wrap
  else .ok ((p * q + HALF) / RAY)

/-- The working registers of R36 inside one POW, and the counts of R108 (the counts are the model's own and reach no
state). -/
structure Work where
  wx : Nat
  wz : Nat
  wn : Nat
  squarings : Nat
  multiplies : Nat
  deriving DecidableEq, Repr

/-- One pass of the loop of R102: square `wx`; if the current bit of `wn` is set, multiply into `wz`; halve `wn`. The squaring
comes before the multiply, and the first failing check ends it (R107). -/
def powPass (w : Nat) (k : Work) : Except Check Work :=
  match mulround w k.wx k.wx with
  | .error c => .error c
  | .ok x =>
    if k.wn % 2 = 1 then
      match mulround w k.wz x with
      | .error c => .error c
      | .ok z => .ok ⟨x, z, k.wn / 2, k.squarings + 1, k.multiplies + 1⟩
    else .ok ⟨x, k.wz, k.wn / 2, k.squarings + 1, k.multiplies⟩

/-- "while n != 0" (R102). The fuel bounds the passes: `w` of them are enough for a `w`-bit exponent (R190). -/
def powLoop (w : Nat) : Nat → Work → Except Check Work
  | 0, k => .ok k
  | fuel + 1, k =>
    if k.wn = 0 then .ok k
    else
      match powPass w k with
      | .error c => .error c
      | .ok k' => powLoop w fuel k'

/-- "z = RAY if n is even, else z = x", then the first halving (R102). -/
def powInit (a b : Nat) : Work := ⟨a, if b % 2 = 0 then RAY else a, b / 2, 0, 0⟩

/-- The pseudocode of R102 on the latched operands. The zero base completes at once (R103). -/
def powRun (w a b : Nat) : Except Check Work :=
  if a = 0 then .ok ⟨a, if b = 0 then RAY else 0, b, 0, 0⟩
  else powLoop w w (powInit a b)

/-- POW (R100): at completion RESULT gets the final `z`, or the command raises ArithmeticOverflow (R112). The working registers
held the run; after it they are unspecified (R36). -/
def execPow (s : State) : Host.Outcome State Fault Refusal :=
  match powRun W s.operandA.toNat s.operandB.toNat with
  | .ok k => .next (complete (BitVec.ofNat W k.wz) (forgetWork s))
  | .error _ => .next (raise .arithmeticOverflow (forgetWork s))

end Sys2Proof.Machine
end

