-- ==== Sys2Proof/Machine/PackedRateStore.lean ====
section
/-! DEFINITION. PackedRateStore, the LOOKUP command (spec 41_packedratestore R130 to R141). -/

namespace Sys2Proof.Machine

/-- LOOKUP (R135): the range check on the whole operand before any offset (R131), one 8-byte field read (R133), and
`delta + RAY` (R134). OPB is ignored (R130). -/
def execLookup (s : State) : Host.Outcome State Fault Refusal :=
  if s.cfg.max.toNat < s.operandA.toNat then .next (raise .outOfRange s)
  else
    match memRead s.cfg (32 * wordIndex s.operandA.toNat + byteInWord s.operandA.toNat) fieldBytes with
    | some delta => .next (complete (BitVec.ofNat W (delta + RAY)) s)
    | none => .fault .romAddressAbsent

end Sys2Proof.Machine
end

