-- ==== Sys2Proof/Machine/Dispatch.lean ====
section
/-! DEFINITION. The effect of a command at its Complete event (spec 10_state R39): one arm per command. -/

namespace Sys2Proof.Machine

def exec (i : Instr) (s : State) : Host.Outcome State Fault Refusal :=
  match i with
  | .pow => Sys2Proof.Machine.execPow s
  | .lookup => Sys2Proof.Machine.execLookup s

end Sys2Proof.Machine
end

