-- ==== Sys2Proof/Machine/Engine.lean ====
section
/-! DEFINITION. The events of the block (spec 10_state R39) and the loading of a command for the host's probes. -/

namespace Sys2Proof.Machine

/-- The engine's turn. While `ENG = RUN(op, a, b)` it is the Complete event, which applies the command's function (R39). While
`ENG = IDLE` Complete is not enabled and the block holds its registers unchanged (60_exceptions R164). -/
def engineTurn (s : State) : Host.Outcome State Fault Refusal :=
  match s.eng with
  | .run i _ _ => exec i s
  | .idle => .next s

/-- One event (R39). -/
def applyEvent (e : Event) (s : State) : Host.Outcome State Fault Refusal :=
  match e with
  | .regWrite idx v => .next (regWrite idx v s)
  | .regRead idx => .next (s.deliver idx (regRead idx s))
  | .reset => .next (resetEvent s)
  | .engine => engineTurn s

/-- The next event of the total order. When no event is left to come the engine has its turn, so an accepted command always
completes (weak fairness, 70_reset R190; assumption log 4). -/
def nextEvent (s : State) : Host.Outcome State Fault Refusal :=
  match s.order with
  | e :: rest => applyEvent e (s.setOrder rest)
  | [] => engineTurn s

/-- `s` with the command word `v` issued and its effect due at the very next step (assumption log 7): a command word stands
accepted with the engine's turn next; any other word is the host's next CTRL write to an idle block. -/
def loadCommand (v : Word) (s : State) : State :=
  match decode v with
  | .ok i => (accept i s).setOrder (.engine :: s.order)
  | .error .illegalCommand =>
    { s with status := { s.status with busy := false }, eng := .idle, order := .regWrite 0 v :: s.order }

end Sys2Proof.Machine
end

