-- ==== Sys2Proof/Machine/Step.lean ====
section
/-! DEFINITION. One step of the machine: one event of the total order (spec 10_state R39, 20_memory R62). -/

namespace Sys2Proof.Machine

/-- One step is one event. A state whose constants violate R55 is refused (assumption log 10). -/
def step (s : State) : Host.Outcome State Fault Refusal :=
  if s.cfg.wf then nextEvent s else .refused .illFormedConfig

/-- `s` with the table's command word placed so that the very next step runs it (assumption log 7). -/
def State.withFetchWord (s : State) (_nbits w : Nat) : State := loadCommand (BitVec.ofNat W w) s

end Sys2Proof.Machine
end

