-- ==== Sys2Proof/Machine/HostOps.lean ====
section
/-! DEFINITION. The host's notation as events: `wr`, `rd` and the pseudo-operations of spec 30_encoding R75 and R76. A host's
variables and branches are not block state; only its transactions are. The polling loop of `wait` appears as the reads it
issues: `busyPolls` of them find BUSY = 1, then the command completes, then one more read ends the loop (70_reset R189). -/

namespace Sys2Proof.Machine

/-- `wr NAME, v` (R75). -/
def wr (r : Slot) (v : Word) : Event := .regWrite r.idx v

/-- `rd NAME -> r` (R75). -/
def rd (r : Slot) : Event := .regRead r.idx

/-- `wait -> s` (R76) of a command that completes after `busyPolls` reads of STATUS. -/
def waitDone (busyPolls : Nat) : List Event :=
  List.replicate busyPolls (rd .status) ++ [.engine, rd .status]

/-- `pow x, n -> (s, r)` (R76). -/
def powOp (x n : Word) (busyPolls : Nat) : List Event :=
  [wr .opa x, wr .opb n, wr .ctrl (encode .pow)] ++ waitDone busyPolls ++ [rd .result]

/-- `lookup b -> (s, r)` (R76). -/
def lookupOp (b : Word) (busyPolls : Nat) : List Event :=
  [wr .opa b, wr .ctrl (encode .lookup)] ++ waitDone busyPolls ++ [rd .result]

end Sys2Proof.Machine
end

