-- ==== Sys2Proof/Safety.lean ====
section
/-! DEFINITION. The terms claims use: the invariant of the block, its host-visible part, and runs of several steps. -/

namespace Sys2Proof.Machine

/-- The forms STATUS takes (spec 10_state R26): idle since reset, busy, or done with one of the four codes. -/
def Status.legal (st : Status) : Prop :=
  st = .atReset ∨ st = .running ∨ st = .finished 0 ∨ ∃ e : ErrKind, st = .finished e.code

/-- What every state of a run satisfies. -/
structure State.Inv (s : State) : Prop where
  /-- The configuration is one R55 admits. -/
  config : s.cfg.wf = true
  /-- R26. -/
  status : s.status.legal
  /-- R35: "`ENG = RUN(...)` exactly when `STATUS.BUSY = 1`". -/
  busy : s.status.busy = true ↔ s.eng ≠ .idle
  /-- R27, R28, R185: while a command runs OPA and OPB still hold what it latched. -/
  latched : ∀ i a b, s.eng = .run i a b → s.opa = a ∧ s.opb = b
  /-- R14, R151: an error leaves RESULT 0. -/
  error : s.status.err ≠ 0 → s.result = 0
  /-- R187: with neither BUSY nor DONE no command was issued since the last reset, so RESULT holds its reset value. -/
  fresh : s.status.busy = false → s.status.done = false → s.result = 0

/-- Everything but the hidden working registers and the free-value counter: what the host can see now or later. -/
structure Visible where
  opa : Word
  opb : Word
  result : Word
  status : Status
  eng : Eng
  cfg : Config
  order : List Event
  received : List (BitVec 3 × Word)
  deriving DecidableEq, Repr

/-- The visible part of a state (R36, R37). -/
def State.visible (s : State) : Visible :=
  ⟨s.opa, s.opb, s.result, s.status, s.eng, s.cfg, s.order, s.received⟩

/-- An outcome with a state's hidden part left out. -/
def visibleOutcome : Host.Outcome State Fault Refusal → Host.Outcome Visible Fault Refusal
  | .next s => .next s.visible
  | .fault r => .fault r
  | .refused r => .refused r

/-- The checked multiply of spec 40_fixedpointpow R101 at `W`, written without the machine's: `none` where a check fails. -/
def Spec.mul (p q : Nat) : Option Nat :=
  if p * q < 2 ^ W ∧ p * q + HALF < 2 ^ W then some ((p * q + HALF) / RAY) else none

/-- The running base `x_i` of R104: `x_0 = a`, `x_i = mulround(x_{i-1}, x_{i-1})`. -/
def Spec.base (a : Nat) : Nat → Option Nat
  | 0 => some a
  | i + 1 => (Spec.base a i).bind fun x => Spec.mul x x

/-- The accumulator after bit `i` of R104: the first factor is `a` or `RAY` by bit 0; every set bit above multiplies its
`x_i` in; every `x_i` is squared whether its bit is set or not, so its check counts too. -/
def Spec.chain (a b : Nat) : Nat → Option Nat
  | 0 => some (if b.testBit 0 then a else RAY)
  | i + 1 =>
    (Spec.chain a b i).bind fun z =>
      (Spec.base a (i + 1)).bind fun x => if b.testBit (i + 1) then Spec.mul z x else some z

/-- `x^n` as R103 and R104 give it: the product chain over the bits of `b` (its last bit is `log2 b`), the zero base apart;
`none` where some multiply fails a check. -/
def Spec.power (a b : Nat) : Option Nat :=
  if a = 0 then some (if b = 0 then RAY else 0) else Spec.chain a b b.log2

/-- The number of 1 bits of a `W`-bit value: `popcount` of R108. -/
def Spec.popcount (n : Nat) : Nat := (List.range W).countP fun i => n.testBit i

/-- Eight bytes of the ROM from address `a`, as the sum of 20_memory R52. -/
def Spec.bytes8 (m : Memory) (a : Nat) : Nat :=
  ((List.range 8).map fun j => (m.read (a + j)).toNat * 256 ^ (7 - j)).sum

/-- Thirty-two bytes of the ROM from address `a`, as the sum of 20_memory R53. -/
def Spec.bytes32 (m : Memory) (a : Nat) : Nat :=
  ((List.range 32).map fun j => (m.read (a + j)).toNat * 256 ^ (31 - j)).sum

/-- `k` steps of the block. -/
def runSteps (k : Nat) (s : State) : Host.Outcome State Fault Refusal := Sys2Proof.core.run k s

end Sys2Proof.Machine
end

