-- ==== Sys2Proof/Certificates/Slice0/Obligations.lean ====
section
/-! DEFINITION. The statements for the provers. Each docstring names the rule of spec/ it formalises, or says that it is derived
or the model's own choice. -/

open Sys2Proof Sys2Proof.Machine

/-! ## Constants, configuration, encoding -/

/-- 00_scope R6. -/
def Obligations.RayIsTenToTwentySeven : Prop :=
  RAY = 10 ^ 27 ∧ RAY = 0x33B2E3C9FD0803CE8000000 ∧ 2 * HALF = RAY ∧ HALF = 5 * 10 ^ 26 ∧ 2 ^ 89 < RAY ∧ RAY < 2 ^ 90

/-- Derived from 20_memory R55: the check says (a), (b), (c) and nothing else but the model's own representation (its ROM cells
in canonical form and inside the ROM, log 9); it implies R55's bound; every other configuration is refused (log 10). -/
def Obligations.ConfigurationCheckSaysR55 : Prop :=
  (∀ c : Config, c.wf = true ↔
      (c.romBytes % 32 = 0 ∧ 32 ≤ c.romBytes) ∧
      (c.max.toNat + 1 ≤ 4 * (c.romBytes / 32) ∧ 4 * (c.romBytes / 32) < c.max.toNat + 1 + 4) ∧
      (∀ k, c.max.toNat + 1 ≤ k → k < 4 * (c.romBytes / 32) → Spec.bytes8 c.rom (8 * k) = 0) ∧
      (c.rom.wf = true ∧ ∀ cell ∈ c.rom, cell.1 < c.romBytes)) ∧
  (∀ c : Config, c.wf = true →
      8 * (c.max.toNat + 1) ≤ 32 * depth c ∧ ∀ s : State, s.cfg = c → (regRead 6 s).toNat = depth c) ∧
  (∀ s : State, s.cfg.wf = false → step s = .refused .illFormedConfig)

/-- 20_memory R53: the word's value, and the field in slot `s` of word `w` as its shifted and masked part. -/
def Obligations.FieldIsShiftedMaskedWord : Prop :=
  ∀ (c : Config) (w : Nat),
    wordValue c w = Spec.bytes32 c.rom (32 * w) ∧
    ∀ slot, slot < 4 →
      field c (4 * w + slot) = Spec.bytes8 c.rom (8 * (4 * w + slot)) ∧
      field c (4 * w + slot) = (wordValue c w >>> (64 * (3 - slot))) % 2 ^ 64

/-- 41_packedratestore R132. -/
def Obligations.LookupOffsets : Prop :=
  ∀ c : Config, c.wf = true → ∀ bps, bps ≤ c.max.toNat →
    offset bps = bps * 8 ∧ wordIndex bps = offset bps / 32 ∧ byteInWord bps = offset bps % 32 ∧
    wordIndex bps = bps / 4 ∧ byteInWord bps = 8 * (bps % 4) ∧ byteInWord bps ∈ [0, 8, 16, 24] ∧
    offset bps ≤ 8 * c.max.toNat ∧ 8 * c.max.toNat < 32 * depth c

/-- 30_encoding R71. -/
def Obligations.DecodeComparesWholeWord : Prop :=
  (∀ v, decode v = .ok .pow ↔ v = 0x01) ∧
  (∀ v, decode v = .ok .lookup ↔ v = 0x02) ∧
  (∀ v, v ≠ 0x01 → v ≠ 0x02 → decode v = .error .illegalCommand) ∧
  (∀ rsv op, rsv ≠ 0 → decode (commandWord rsv op) = .error .illegalCommand) ∧
  (∀ (s : State) v, s.status.busy = true → ctrlWrite v s = s)

/-- Derived from 30_encoding R70 and R72: decode and encode agree on every command and every word, and the command word has its
two fields where R70 puts them. -/
def Obligations.DecodeEncodeAgree : Prop :=
  (∀ i : Instr, i.wf = true → decode (encode i) = .ok i) ∧
  (∀ v i, decode v = .ok i → v = encode i) ∧
  (∀ rsv op, (commandWord rsv op).extractLsb' 0 8 = op ∧ (commandWord rsv op).extractLsb' 8 248 = rsv)

/-- Derived from 30_encoding R72 and R74: the two command words and a few illegal ones, as the host's table numbers them. -/
def Obligations.TableWordsDecode : Prop :=
  decodeTableWord 256 0x0000000000000000000000000000000000000000000000000000000000000001 = some .pow ∧
  decodeTableWord 256 0x0000000000000000000000000000000000000000000000000000000000000002 = some .lookup ∧
  decodeTableWord 256 0x00 = none ∧ decodeTableWord 256 0x03 = none ∧ decodeTableWord 256 0xFF = none ∧
  decodeTableWord 256 0x101 = none ∧ decodeTableWord 256 0x102 = none ∧ decodeTableWord 256 (2 ^ 256 - 1) = none

/-! ## Reset and the step -/

/-- 10_state R38, of the state a model starts from (R182) and of the state any Reset event leaves. -/
def Obligations.ResetValues : Prop :=
  (∀ t : State, (∃ c, t = State.resetWith c) ∨ (∃ s, t = resetEvent s) →
    t.opa = 0 ∧ t.opb = 0 ∧ t.result = 0 ∧ t.status.busy = false ∧ t.status.done = false ∧ t.status.err = 0 ∧
    t.eng = .idle ∧ regRead 0 t = 0 ∧ regRead 1 t = 0 ∧ regRead 7 t = 0) ∧
  (∀ s : State, regRead 5 (resetEvent s) = regRead 5 s ∧ regRead 6 (resetEvent s) = regRead 6 s ∧
    ∀ a, (resetEvent s).cfg.rom.read a = s.cfg.rom.read a)

/-- 70_reset R180: the Reset event as a step, from any state, a running command abandoned. -/
def Obligations.ResetAbandonsRunningCommand : Prop :=
  ∀ (s : State) rest, s.cfg.wf = true → s.order = .reset :: rest →
    ∃ t, step s = .next t ∧
      t.opa = 0 ∧ t.opb = 0 ∧ t.result = 0 ∧ t.status.word = 0x00 ∧ t.eng = .idle ∧
      t.cfg = s.cfg ∧ t.order = rest ∧ t.received = s.received ∧
      engineTurn t = .next t

/-- Derived; the model's own (log 1, log 2): the invariant holds at reset, whatever admitted configuration the block is built
with. -/
def Obligations.ResetSatisfiesInvariant : Prop :=
  State.reset.Inv ∧ ∀ c : Config, c.wf = true → (State.resetWith c).Inv

/-- Derived from 10_state R39: one step is one event. The Complete event is `exec` of the command that runs; a CTRL write of a
command word accepts the command that the word decodes to; Complete is not enabled while idle. That a block without events to
come gives the engine its turn is the model's form of weak fairness (log 4). -/
def Obligations.StepRunsTheCommand : Prop :=
  ∀ s : State, s.cfg.wf = true →
    (∀ i a b rest, s.eng = .run i a b → s.order = .engine :: rest → step s = exec i (s.setOrder rest)) ∧
    (∀ i a b, s.eng = .run i a b → s.order = [] → step s = exec i s) ∧
    (∀ v i rest, s.status.busy = false → s.order = .regWrite 0 v :: rest → decode v = .ok i →
      step s = .next { s with order := rest, eng := .run i s.opa s.opb, status := ⟨true, false, 0⟩ }) ∧
    (∀ rest, s.eng = .idle → s.order = .engine :: rest → step s = .next (s.setOrder rest)) ∧
    (s.eng = .idle → s.order = [] → step s = .next s)

/-- Derived; the model's own (log 7): the very next step after `withFetchWord` runs the command the word decodes to, on OPA and
OPB; of any other word it raises IllegalCommand. -/
def Obligations.FetchedWordRunsNext : Prop :=
  ∀ (s : State) (nbits w : Nat), s.cfg.wf = true → w < 2 ^ 256 →
    (∀ i, decodeTableWord nbits w = some i →
      step (s.withFetchWord nbits w) = exec i ((s.withFetchWord nbits w).setOrder s.order) ∧
      (s.withFetchWord nbits w).eng = .run i s.opa s.opb) ∧
    (decodeTableWord nbits w = none →
      ∃ t, step (s.withFetchWord nbits w) = .next t ∧ t.status.word = 0x32 ∧ t.result = 0 ∧ t.eng = .idle ∧
        t.opa = s.opa ∧ t.opb = s.opb ∧ t.cfg = s.cfg ∧ t.order = s.order)

/-! ## The host's transactions -/

/-- Derived from 10_state R22, R33 and 00_scope R10: what each of the eight slots reads as, and that a read changes nothing (the
record of what the host received is the model's own, log 5). -/
def Obligations.ReadsReturnRegisters : Prop :=
  ∀ (s : State) rest, s.cfg.wf = true →
    (∀ idx, s.order = .regRead idx :: rest →
      step s = .next { s with order := rest, received := (idx, regRead idx s) :: s.received }) ∧
    regRead 0 s = 0 ∧ regRead 2 s = s.opa ∧ regRead 3 s = s.opb ∧ regRead 4 s = s.result ∧ regRead 5 s = s.cfg.max ∧
    (regRead 6 s).toNat = s.cfg.romBytes / 32 ∧ regRead 7 s = 0 ∧
    (regRead 1 s).toNat =
      (if s.status.busy then 1 else 0) + 2 * (if s.status.done then 1 else 0) + 16 * s.status.err.toNat

/-- 10_state R32 (with R30 and R31): writes to the read-only registers and to slot 7 are ignored, with no error and no status
change; slot 7 reads 0; MAXBPS and TABLE_WORDS read the build parameters before and after. -/
def Obligations.ReadOnlyWritesIgnored : Prop :=
  ∀ (s : State) idx v rest, s.cfg.wf = true → idx ∈ [(1 : BitVec 3), 4, 5, 6, 7] → s.order = .regWrite idx v :: rest →
    step s = .next (s.setOrder rest) ∧
    regRead 7 s = 0 ∧ regRead 5 (s.setOrder rest) = s.cfg.max ∧
    (regRead 6 (s.setOrder rest)).toNat = s.cfg.romBytes / 32

/-- Derived from 10_state R27 and R28: an idle write to OPA or OPB sets that register and nothing else, and the register then
reads as the value. -/
def Obligations.IdleOperandWrites : Prop :=
  ∀ (s : State) v rest, s.cfg.wf = true → s.status.busy = false →
    (s.order = .regWrite 2 v :: rest →
      step s = .next { s with order := rest, opa := v } ∧ regRead 2 { s with order := rest, opa := v } = v) ∧
    (s.order = .regWrite 3 v :: rest →
      step s = .next { s with order := rest, opb := v } ∧ regRead 3 { s with order := rest, opb := v } = v)

/-- 10_state R23: a CTRL write while busy, of a command word, and of any other word; and RESULT while the command runs. -/
def Obligations.ControlWriteDecidesTheCommand : Prop :=
  ∀ (s : State) v rest, s.cfg.wf = true → s.order = .regWrite 0 v :: rest →
    regRead 0 s = 0 ∧
    (s.status.busy = true → step s = .next (s.setOrder rest)) ∧
    (s.status.busy = false → v = 0x01 →
      step s = .next { s with order := rest, eng := .run .pow s.opa s.opb, status := ⟨true, false, 0⟩ }) ∧
    (s.status.busy = false → v = 0x02 →
      step s = .next { s with order := rest, eng := .run .lookup s.opa s.opb, status := ⟨true, false, 0⟩ }) ∧
    (s.status.busy = false → v ≠ 0x01 → v ≠ 0x02 →
      step s = .next { s with order := rest, result := 0, status := ⟨false, true, 3⟩, eng := .idle }) ∧
    (∀ (t : State) idx v', t.status.busy = true → (regWrite idx v' t).result = t.result)

/-- 60_exceptions R154. -/
def Obligations.IllegalCommandAtOnce : Prop :=
  ∀ (s : State) v rest, s.Inv → s.order = .regWrite 0 v :: rest →
    (s.status.busy = false → v ≠ 0x01 → v ≠ 0x02 →
      ∃ t, step s = .next t ∧ t.result = 0 ∧ t.status.word = 0x32 ∧ t.eng = .idle ∧ s.eng = .idle ∧
        t.status.busy = false ∧ t.opa = s.opa ∧ t.opb = s.opb) ∧
    (s.status.busy = true → ∃ t, step s = .next t ∧ t = (s.setOrder rest))

/-- 70_reset R185: a write while busy is dropped without a trace and the command goes on with its latched operands; whether a
write to OPA lands depends on its side of the Complete event, and on nothing else; writes to read-only registers are ignored at
all times. -/
def Obligations.WriteRacesCompletion : Prop :=
  ∀ (s : State) i a b idx v, s.Inv → s.eng = .run i a b →
    (∀ rest, s.order = .regWrite idx v :: rest →
      step s = .next (s.setOrder rest) ∧ (s.setOrder rest).operandA = a ∧
        (s.setOrder rest).operandB = b) ∧
    (∃ t, runSteps 1 (s.setOrder [.engine]) = .next t ∧
      runSteps 2 (s.setOrder [.regWrite idx v, .engine]) = .next t ∧ t.opa = a ∧ t.opb = b) ∧
    (∃ t, runSteps 2 (s.setOrder [.engine, .regWrite 2 v]) = .next t ∧ t.opa = v ∧ t.opb = b) ∧
    (∀ (u : State) slot, slot ∈ [(1 : BitVec 3), 4, 5, 6, 7] → regWrite slot v u = u)

/-- Derived from 70_reset R184 and 10_state R29: while BUSY a read of STATUS gives 0x01, and no step that leaves the block busy
changes RESULT, so a read of it gives the previous command's value. A step that does change RESULT had one of three events next:
the engine's turn while a command ran (its Complete event, which gives the state `exec` gives); an idle CTRL write of a word that
is no command (R154); or a Reset. Each writes STATUS in the same event (20_memory R63). That a block without events to come gives
the engine its turn is the model's own (log 4). -/
def Obligations.ResultChangesOnlyAtCompletion : Prop :=
  ∀ s t : State, s.Inv → step s = .next t →
    (s.status.busy = true → regRead 1 s = 0x01) ∧
    (t.status.busy = true → t.result = s.result) ∧
    (t.result ≠ s.result →
      (∃ i a b, s.eng = .run i a b ∧ (s.order = [] ∨ ∃ rest, s.order = .engine :: rest) ∧
        exec i (s.setOrder s.order.tail) = .next t ∧ t.eng = .idle ∧ t.status.busy = false ∧ t.status.done = true ∧
        (t.status.err ≠ 0 → t.result = 0)) ∨
      (∃ v rest, s.order = .regWrite 0 v :: rest ∧ s.status.busy = false ∧ (∀ i, decode v ≠ .ok i) ∧
        t.result = 0 ∧ t.status.word = 0x32 ∧ t.eng = .idle) ∨
      (∃ rest, s.order = .reset :: rest ∧ t.result = 0 ∧ t.status.word = 0x00 ∧ t.eng = .idle))

/-- Derived from 10_state R27 and R28: OPA changes by a write to its own slot while idle, or by reset; OPB likewise. No command
writes either. -/
def Obligations.OperandsChangeOnlyByTheHost : Prop :=
  ∀ s t : State, step s = .next t →
    (t.opa ≠ s.opa → (∃ v rest, s.order = .regWrite 2 v :: rest ∧ s.status.busy = false ∧ t.opa = v) ∨
      (∃ rest, s.order = .reset :: rest ∧ t.opa = 0)) ∧
    (t.opb ≠ s.opb → (∃ v rest, s.order = .regWrite 3 v :: rest ∧ s.status.busy = false ∧ t.opb = v) ∨
      (∃ rest, s.order = .reset :: rest ∧ t.opb = 0))

/-- Derived from 10_state R24 and 60_exceptions R155: STATUS changes by an idle CTRL write (acceptance or IllegalCommand), by a
completion, or by reset. -/
def Obligations.StatusWriters : Prop :=
  ∀ s t : State, step s = .next t → t.status ≠ s.status →
    (∃ v rest, s.order = .regWrite 0 v :: rest ∧ s.status.busy = false) ∨
    (∃ rest, s.order = .reset :: rest ∧ t.status.word = 0x00) ∨
    (∃ i a b, s.eng = .run i a b ∧ (s.order = [] ∨ ∃ rest, s.order = .engine :: rest) ∧ t.status.done = true ∧
      t.status.busy = false)

/-! ## FixedPointPow -/

/-- 40_fixedpointpow R101 (with the order of R107: check M is decided before check A). -/
def Obligations.MulroundChecksThenRounds : Prop :=
  ∀ p q, p < 2 ^ W → q < 2 ^ W →
    (2 ^ W ≤ p * q → mulround W p q = .error .precision) ∧
    (p * q < 2 ^ W → 2 ^ W ≤ p * q + HALF → mulround W p q = .error .wrap) ∧
    (p * q < 2 ^ W → p * q + HALF < 2 ^ W →
      ∃ v, mulround W p q = .ok v ∧ v = (p * q + HALF) / RAY ∧ v < 2 ^ W ∧
        v * RAY ≤ p * q + HALF ∧ p * q + HALF < (v + 1) * RAY)

/-- 40_fixedpointpow R105: the source's division-back test is check M for every non-zero divisor; a zero operand never
overflows. -/
def Obligations.DivisionBackTestIsCheckM : Prop :=
  ∀ x q, x < 2 ^ W → q < 2 ^ W →
    (x ≠ 0 → ((((x * q) % 2 ^ W) / x = q) ↔ x * q < 2 ^ W)) ∧
    (x ≠ 0 → ((((x * q) % 2 ^ W) / x ≠ q) ↔ mulround W x q = .error .precision)) ∧
    mulround W 0 q = .ok 0 ∧ mulround W x 0 = .ok 0

/-- Derived from 40_fixedpointpow R113: check A cannot fail in a squaring or in a multiply by `RAY`. -/
def Obligations.CheckAUnreachableInSquaring : Prop :=
  ∀ x, mulround W x x ≠ .error .wrap ∧ mulround W RAY x ≠ .error .wrap

/-- 40_fixedpointpow R104 (and R103): while POW runs on `a` and `b`, its Complete event answers a next state; where the product
chain over the bits of `b` passes every check, RESULT is its value, STATUS is 0x02, the engine is idle, and nothing else that the
spec names has changed. -/
def Obligations.PowCompletesWithProductChain : Prop :=
  ∀ (s : State) a b v, s.eng = .run .pow a b → Spec.power a.toNat b.toNat = some v →
    ∃ t, exec .pow s = .next t ∧
      t.result.toNat = v ∧ t.status.word = 0x02 ∧ t.eng = .idle ∧
      t.opa = s.opa ∧ t.opb = s.opb ∧ t.cfg = s.cfg ∧ (∀ x, t.cfg.rom.read x = s.cfg.rom.read x) ∧
      t.order = s.order ∧ t.received = s.received

/-- 40_fixedpointpow R112: POW raises ARITHMETIC_OVERFLOW if and only if some multiply of its run fails a check; then RESULT is 0
and STATUS 0x12. It raises nothing else. With the frame of both outcomes. -/
def Obligations.PowOverflowsExactlyWhenAMultiplyFails : Prop :=
  ∀ (s : State) a b, s.eng = .run .pow a b →
    ∃ t, exec .pow s = .next t ∧
      (t.status.word = 0x12 ↔ Spec.power a.toNat b.toNat = none) ∧
      (Spec.power a.toNat b.toNat = none → t.result = 0 ∧ t.eng = .idle) ∧
      (t.status.word = 0x12 ∨ t.status.word = 0x02) ∧
      t.opa = s.opa ∧ t.opb = s.opb ∧ t.cfg = s.cfg ∧ (∀ x, t.cfg.rom.read x = s.cfg.rom.read x) ∧
      t.order = s.order ∧ t.received = s.received

/-- Derived from 40_fixedpointpow R108: the work of a POW that succeeds. The bit length of `b` is one more than the number of
squarings; at most 255 of each; none for a zero base or a zero exponent. -/
def Obligations.PowWorkCounts : Prop :=
  ∀ (a b : Word) k, powRun W a.toNat b.toNat = .ok k →
    (a ≠ 0 → b ≠ 0 → 2 ^ k.squarings ≤ b.toNat ∧ b.toNat < 2 ^ (k.squarings + 1) ∧
      k.multiplies = Spec.popcount (b.toNat / 2)) ∧
    (a = 0 ∨ b = 0 → k.squarings = 0 ∧ k.multiplies = 0) ∧
    k.squarings ≤ 255 ∧ k.multiplies ≤ 255

/-- 40_fixedpointpow R109: the identities (a) to (e). -/
def Obligations.PowIdentities : Prop :=
  (∀ (s : State) a b, s.eng = .run .pow a b →
    ∃ t, (b = 0 → exec .pow s = .next t ∧ t.result.toNat = RAY ∧ t.status.word = 0x02) ∧
      (b = 1 → exec .pow s = .next t ∧ t.result = a ∧ t.status.word = 0x02) ∧
      (a = 0 → 1 ≤ b.toNat → exec .pow s = .next t ∧ t.result = 0 ∧ t.status.word = 0x02) ∧
      (a.toNat = RAY → exec .pow s = .next t ∧ t.result.toNat = RAY ∧ t.status.word = 0x02)) ∧
  (∀ x n, n ≤ 1 → ∃ k, powRun W x n = .ok k ∧ k.squarings = 0 ∧ k.multiplies = 0) ∧
  (∀ v, RAY * v + HALF < 2 ^ W → mulround W RAY v = .ok v)

/-- Derived from 40_fixedpointpow R101 to R104: POW computes `x^n`. A base that is `m` whole units gives `m^n` whole units
wherever the largest product fits. -/
def Obligations.PowOfWholeUnits : Prop :=
  ∀ (s : State) a b m, s.eng = .run .pow a b → 1 ≤ m → a.toNat = m * RAY →
    m ^ b.toNat * RAY * RAY + HALF < 2 ^ W →
    ∃ t, exec .pow s = .next t ∧ t.result.toNat = m ^ b.toNat * RAY ∧ t.status.word = 0x02

/-! ## PackedRateStore -/

/-- 41_packedratestore R133 and R134, in the pseudocode of R135: an in-range LOOKUP completes with the big-endian 8-byte field of
`bps` plus `RAY`, whatever OPB is; and its frame. The hidden registers are left open (R36). -/
def Obligations.LookupCompletesWithDecodedRate : Prop :=
  ∀ (s : State) a b, s.cfg.wf = true → s.eng = .run .lookup a b → a.toNat ≤ s.cfg.max.toNat →
    ∃ t, exec .lookup s = .next t ∧
      t.result.toNat = Spec.bytes8 s.cfg.rom (32 * (a.toNat * 8 / 32) + a.toNat * 8 % 32) + RAY ∧
      RAY ≤ t.result.toNat ∧ t.result.toNat ≤ RAY + 2 ^ 64 - 1 ∧ t.result.toNat < 2 ^ 90 ∧
      t.status.word = 0x02 ∧ t.eng = .idle ∧
      t.opa = s.opa ∧ t.opb = s.opb ∧ t.cfg = s.cfg ∧
      (∀ x, t.cfg.rom.read x = s.cfg.rom.read x) ∧
      t.order = s.order ∧ t.received = s.received

/-- 41_packedratestore R136 (the comparison is R131's, on the whole operand), and the frame. The hidden registers are left open
(R36). -/
def Obligations.LookupOutOfRangeExactlyBeyondMax : Prop :=
  ∀ (s : State) a b, s.cfg.wf = true → s.eng = .run .lookup a b →
    ∃ t, exec .lookup s = .next t ∧
      (t.status.word = 0x22 ↔ s.cfg.max.toNat < a.toNat) ∧
      (s.cfg.max.toNat < a.toNat → t.result = 0 ∧ t.eng = .idle) ∧
      (t.status.word = 0x22 ∨ t.status.word = 0x02) ∧
      t.opa = s.opa ∧ t.opb = s.opb ∧ t.cfg = s.cfg ∧
      (∀ x, t.cfg.rom.read x = s.cfg.rom.read x) ∧
      t.order = s.order ∧ t.received = s.received

/-- Derived from 00_scope R13; the model's own (log 11): the one stop of a command. LOOKUP faults exactly where its in-range field
has no byte in the ROM, which no configuration of R55 allows; POW never faults; no command is refused. -/
def Obligations.LookupFaultsOnlyOutsideTheRom : Prop :=
  (∀ (s : State) a b, s.eng = .run .lookup a b →
    (exec .lookup s = .fault .romAddressAbsent ↔
      a.toNat ≤ s.cfg.max.toNat ∧ 32 * (s.cfg.romBytes / 32) < 8 * a.toNat + 8)) ∧
  (∀ (s : State) r, exec .pow s ≠ .fault r) ∧
  (∀ (s : State) i r, exec i s ≠ .refused r)

/-- Derived; the model's own (log 8): `exec` of a command in an idle state is its acceptance and its completion with no event
between. -/
def Obligations.ExecWhileIdleIsAcceptThenComplete : Prop :=
  ∀ (s : State) i, s.eng = .idle → exec i s = exec i (accept i s)

/-- Derived from 20_memory R54 and R55: the table of a dense list of packable rates is a configuration the block is built from,
and its bytes are the ones R54 gives. -/
def Obligations.PackedTableIsWellFormed : Prop :=
  ∀ rates : List Nat, 1 ≤ rates.length → rates.length ≤ 2 ^ W → (∀ r ∈ rates, RAY ≤ r ∧ r < RAY + 2 ^ 64) →
    (pack rates).wf = true ∧
    (∀ k j (hk : k < rates.length), j < 8 →
      ((pack rates).rom.read (8 * k + j)).toNat = ((rates[k] - RAY) >>> (8 * (7 - j))) % 256) ∧
    (∀ k j, rates.length ≤ k → j < 8 → (pack rates).rom.read (8 * k + j) = 0)

/-- 41_packedratestore R137: for every `bps` in `[0, MAX]`, LOOKUP returns exactly the rate packed at position `bps`. -/
def Obligations.LookupRoundTrip : Prop :=
  ∀ (rates : List Nat) (s : State) a b, rates.length ≤ 2 ^ W → (∀ r ∈ rates, RAY ≤ r ∧ r < RAY + 2 ^ 64) →
    s.cfg = pack rates → s.eng = .run .lookup a b → ∀ h : a.toNat < rates.length,
    (pack rates).max.toNat = rates.length - 1 ∧
    ∃ t, exec .lookup s = .next t ∧ t.result.toNat = rates[a.toNat] ∧ t.status.word = 0x02

/-- Derived from 41_packedratestore R138: no byte of the padding reaches a LOOKUP's outcome. -/
def Obligations.PaddingNeverRead : Prop :=
  ∀ (s t : State) (c' : Config), s.cfg.wf = true → c'.max = s.cfg.max → c'.romBytes = s.cfg.romBytes →
    (∀ x, x < 8 * (s.cfg.max.toNat + 1) → c'.rom.read x = s.cfg.rom.read x) →
    exec .lookup s = .next t → exec .lookup { s with cfg := c' } = .next { t with cfg := c' }

/-- Derived from 20_memory R50: the table is read by LOOKUP's Complete event only. Every other step is the same whatever bytes the
ROM holds, so no host transaction can reach them. -/
def Obligations.OnlyLookupReadsTheTable : Prop :=
  ∀ (s t : State) (c' : Config), c'.wf = true → c'.max = s.cfg.max → c'.romBytes = s.cfg.romBytes →
    (∀ a b, s.eng = .run .lookup a b → ∃ e rest, s.order = e :: rest ∧ e ≠ .engine) →
    step s = .next t → step { s with cfg := c' } = .next { t with cfg := c' }

/-! ## Whole-machine rules -/

/-- Derived from 10_state R26 and R35, 00_scope R14, 70_reset R185 and R187: the invariant is kept by every step, whatever event
comes. -/
def Obligations.StepKeepsInvariant : Prop :=
  ∀ s t : State, s.Inv → step s = .next t → t.Inv

/-- Derived from 20_memory R55 and 70_reset R190: from a state that satisfies the invariant no step stops. -/
def Obligations.NoStepStops : Prop :=
  ∀ s : State, s.Inv → ∃ t, step s = .next t

/-- 10_state R26, along every run of every interleaving of events. -/
def Obligations.StatusTakesOnlySixValues : Prop :=
  ∀ (s t : State) k, s.Inv → runSteps k s = .next t →
    (regRead 1 t ∈ [(0x00 : Word), 0x01, 0x02, 0x12, 0x22, 0x32]) ∧
    ¬ (t.status.busy = true ∧ t.status.done = true) ∧ (t.status.err ≠ 0 → t.status.done = true) ∧
    (regRead 1 t = 0x01 ↔ t.eng ≠ .idle)

/-- Derived from 20_memory R50 and 60_exceptions R156: no event of any run changes the ROM, MAX or DEPTH. -/
def Obligations.TableNeverChanges : Prop :=
  ∀ (s t : State) k, runSteps k s = .next t →
    t.cfg = s.cfg ∧ (∀ x, t.cfg.rom.read x = s.cfg.rom.read x) ∧ regRead 5 t = regRead 5 s ∧ regRead 6 t = regRead 6 s

/-- Derived from 10_state R36: along every run, no host-visible value depends on what the working registers hold. -/
def Obligations.WorkingRegistersAreUnobservable : Prop :=
  ∀ (s s' : State) k, s.visible = s'.visible → visibleOutcome (runSteps k s) = visibleOutcome (runSteps k s')

/-- Derived from 60_exceptions R156: a command's result and status depend only on its latched operands and the configuration, not
on any earlier result, error or register. -/
def Obligations.EarlierErrorsDoNotMatter : Prop :=
  ∀ (s s' t : State) i a b, s.eng = .run i a b → s'.eng = .run i a b → s.cfg = s'.cfg → exec i s = .next t →
    ∃ t', exec i s' = .next t' ∧ t'.result = t.result ∧ t'.status = t.status

/-- Derived from 70_reset R190 (that the order of events is a finite list is the model's own, log 4): an accepted command
completes, with the result and status of its Complete event, unless a Reset comes first. -/
def Obligations.AcceptedCommandCompletes : Prop :=
  ∀ (s : State) i a b, s.Inv → s.eng = .run i a b → Event.reset ∉ s.order →
    ∃ k t u, k ≤ s.order.length + 1 ∧ runSteps k s = .next t ∧ exec i s = .next u ∧
      t.eng = .idle ∧ t.status.done = true ∧ t.result = u.result ∧ t.status = u.status

/-- Derived from 30_encoding R76 and 40_fixedpointpow R103, R104 and R112: the `pow` pseudo-operation, from any state that is not
busy, with any number of polls that find the block busy. The host reads 0x02 and the product chain's value, or 0x12 and 0. That
`powOp` puts the engine's turn in the list of events after those polls is the model's own (log 4), and so is the record of what
the host reads (log 5). -/
def Obligations.PowPseudoOperation : Prop :=
  ∀ (s : State) x n polls rest, s.cfg.wf = true → s.status.busy = false → s.order = powOp x n polls ++ rest →
    ∃ t w r, runSteps (polls + 6) s = .next t ∧
      t.received = (4, r) :: (1, w) :: (List.replicate polls (1, 0x01) ++ s.received) ∧
      ((w = 0x02 ∧ Spec.power x.toNat n.toNat = some r.toNat) ∨
       (w = 0x12 ∧ r = 0 ∧ Spec.power x.toNat n.toNat = none)) ∧
      t.opa = x ∧ t.opb = n ∧ t.eng = .idle ∧ t.order = rest

/-- Derived from 30_encoding R76 and 41_packedratestore R133, R134 and R136: the `lookup` pseudo-operation, likewise. That
`lookupOp` puts the engine's turn after the polls is the model's own (log 4), and so is the record of what the host reads
(log 5). -/
def Obligations.LookupPseudoOperation : Prop :=
  ∀ (s : State) x polls rest, s.cfg.wf = true → s.status.busy = false → s.order = lookupOp x polls ++ rest →
    ∃ t w r, runSteps (polls + 5) s = .next t ∧
      t.received = (4, r) :: (1, w) :: (List.replicate polls (1, 0x01) ++ s.received) ∧
      ((w = 0x02 ∧ x.toNat ≤ s.cfg.max.toNat ∧ r.toNat = Spec.bytes8 s.cfg.rom (8 * x.toNat) + RAY) ∨
       (w = 0x22 ∧ r = 0 ∧ s.cfg.max.toNat < x.toNat)) ∧
      t.opa = x ∧ t.opb = s.opb ∧ t.eng = .idle ∧ t.order = rest

/-- Derived from 10_state R36 and 70_reset R180; that nothing else touches the hidden registers is the model's own (log 3: R36
leaves them unspecified between commands). A step that changes `wx`, `wz`, `wn` or the number of the next free value is POW's
Complete event or a Reset, each of which draws three free values; LOOKUP's Complete event keeps all four. -/
def Obligations.WorkingRegistersChangeOnlyByPowOrReset : Prop :=
  (∀ s t : State, step s = .next t →
    (t.wx ≠ s.wx ∨ t.wz ≠ s.wz ∨ t.wn ≠ s.wn ∨ t.freeCount ≠ s.freeCount) →
    ((∃ a b, s.eng = .run .pow a b ∧ (s.order = [] ∨ ∃ rest, s.order = .engine :: rest)) ∨
      (∃ rest, s.order = .reset :: rest)) ∧
    t.freeCount = s.freeCount + 3 ∧ t.wx = Config.freeWord s.freeCount ∧ t.wz = Config.freeWord (s.freeCount + 1) ∧
    t.wn = Config.freeWord (s.freeCount + 2)) ∧
  (∀ s t : State, exec .lookup s = .next t →
    t.wx = s.wx ∧ t.wz = s.wz ∧ t.wn = s.wn ∧ t.freeCount = s.freeCount)
end

