-- ==== Sys2Proof/Laws/Memory.lean ====
section
/-! SUPPORT. The table ROM: the canonical form, what the build's `ofBytes` holds, and when a field read is inside the ROM. -/

namespace Sys2Proof.Machine

theorem canonicalFrom_mono {m : Memory} : ∀ {lo lo' : Nat}, lo' ≤ lo → Memory.canonicalFrom lo m = true →
    Memory.canonicalFrom lo' m = true := by
  cases m with
  | nil => intros; rfl
  | cons cell rest =>
    intro lo lo' hle h
    simp only [Memory.canonicalFrom, Bool.and_eq_true, decide_eq_true_eq] at h ⊢
    exact ⟨⟨Nat.le_trans hle h.1.1, h.1.2⟩, h.2⟩

theorem ofBytesAt_canonical (bytes : List Byte) : ∀ a, Memory.canonicalFrom a (Memory.ofBytesAt a bytes) = true := by
  induction bytes with
  | nil => intro a; rfl
  | cons b rest ih =>
    intro a
    by_cases hb : b = Memory.blank
    · simpa [Memory.ofBytesAt, hb] using canonicalFrom_mono (Nat.le_succ a) (ih (a + 1))
    · simp [Memory.ofBytesAt, hb, Memory.canonicalFrom, ih (a + 1)]

/-- The one operation that makes a ROM keeps the canonical form. -/
theorem ofBytes_wf (bytes : List Byte) : (Memory.ofBytes bytes).wf = true := ofBytesAt_canonical bytes 0

theorem read_ofBytesAt_below (bytes : List Byte) : ∀ a k, k < a → (Memory.ofBytesAt a bytes).read k = Memory.blank := by
  induction bytes with
  | nil => intro a k _; rfl
  | cons b rest ih =>
    intro a k hk
    have hr := ih (a + 1) k (by omega)
    by_cases hb : b = Memory.blank
    · simpa [Memory.ofBytesAt, hb] using hr
    · simpa [Memory.ofBytesAt, hb, Memory.read, Nat.ne_of_gt hk] using hr

theorem read_ofBytesAt (bytes : List Byte) : ∀ a k, (Memory.ofBytesAt a bytes).read (a + k) = bytes.getD k Memory.blank := by
  induction bytes with
  | nil => intro a k; simp [Memory.ofBytesAt, Memory.read]
  | cons b rest ih =>
    intro a k
    cases k with
    | zero =>
      have hr := read_ofBytesAt_below rest (a + 1) a (by omega)
      by_cases hb : b = Memory.blank <;> simp [Memory.ofBytesAt, hb, Memory.read, hr]
    | succ k =>
      have hr := ih (a + 1) k
      rw [show a + 1 + k = a + (k + 1) by omega] at hr
      by_cases hb : b = Memory.blank
      · simpa [Memory.ofBytesAt, hb] using hr
      · simpa [Memory.ofBytesAt, hb, Memory.read, show a ≠ a + (k + 1) by omega] using hr

/-- The ROM built from `bytes` holds byte `k` at address `k`, and blank bytes beyond. -/
theorem read_ofBytes (bytes : List Byte) (k : Nat) : (Memory.ofBytes bytes).read k = bytes.getD k Memory.blank := by
  simpa [Memory.ofBytes] using read_ofBytesAt bytes 0 k

theorem ofBytesAt_address_lt (bytes : List Byte) : ∀ a cell, cell ∈ Memory.ofBytesAt a bytes → cell.1 < a + bytes.length := by
  induction bytes with
  | nil => intro a cell h; simp [Memory.ofBytesAt] at h
  | cons b rest ih =>
    intro a cell h
    by_cases hb : b = Memory.blank
    · have := ih (a + 1) cell (by simpa [Memory.ofBytesAt, hb] using h)
      simp only [List.length_cons]; omega
    · rcases List.mem_cons.mp (by simpa [Memory.ofBytesAt, hb] using h) with rfl | h
      · simp
      · have := ih (a + 1) cell h
        simp only [List.length_cons]; omega

theorem read_below {m : Memory} : ∀ {lo a : Nat}, m.canonicalFrom lo = true → a < lo → m.read a = Memory.blank := by
  induction m with
  | nil => intros; rfl
  | cons cell rest ih =>
    intro lo a h ha
    simp only [Memory.canonicalFrom, Bool.and_eq_true, decide_eq_true_eq] at h
    rw [Memory.read, if_neg (by omega)]
    exact ih h.2 (by omega)

theorem canonicalFrom_ext : ∀ {m m' : Memory} {lo : Nat}, m.canonicalFrom lo = true → m'.canonicalFrom lo = true →
    (∀ a, m.read a = m'.read a) → m = m' := by
  intro m
  induction m with
  | nil =>
    intro m' lo _ h' hr
    cases m' with
    | nil => rfl
    | cons cell' rest' =>
      simp only [Memory.canonicalFrom, Bool.and_eq_true, bne_iff_ne] at h'
      have := hr cell'.1
      simp [Memory.read] at this
      exact absurd this.symm h'.1.2
  | cons cell rest ih =>
    intro m' lo h h' hr
    cases m' with
    | nil =>
      simp only [Memory.canonicalFrom, Bool.and_eq_true, bne_iff_ne] at h
      have := hr cell.1
      simp [Memory.read] at this
      exact absurd this h.1.2
    | cons cell' rest' =>
      obtain ⟨k, b⟩ := cell
      obtain ⟨k', b'⟩ := cell'
      simp only [Memory.canonicalFrom, Bool.and_eq_true, bne_iff_ne, decide_eq_true_eq] at h h'
      have hk := hr k
      have hk' := hr k'
      simp only [Memory.read, if_true] at hk hk'
      have hkk : k = k' := by
        rcases Nat.lt_trichotomy k k' with hlt | heq | hgt
        · rw [if_neg (by omega), read_below h'.2 (by omega)] at hk
          exact absurd hk h.1.2
        · exact heq
        · rw [if_neg (by omega), read_below h.2 (by omega)] at hk'
          exact absurd hk'.symm h'.1.2
      subst hkk
      rw [if_pos rfl] at hk
      have hrest : ∀ a, Memory.read rest a = Memory.read rest' a := by
        intro a
        have ha := hr a
        by_cases hak : k = a
        · subst hak
          rw [read_below h.2 (Nat.lt_succ_self k), read_below h'.2 (Nat.lt_succ_self k)]
        · simpa [Memory.read, hak] using ha
      rw [hk, ih h.2 h'.2 hrest]

/-- Canonical memories that read alike are equal data. -/
theorem wf_ext {m m' : Memory} (h : m.wf = true) (h' : m'.wf = true) (hr : ∀ a, m.read a = m'.read a) : m = m' :=
  canonicalFrom_ext h h' hr

/-- `n` bytes are below `256^n`. -/
theorem bigEndian_lt (m : Memory) (a : Nat) : ∀ n, m.bigEndian a n < 256 ^ n := by
  intro n
  induction n with
  | zero => simp [Memory.bigEndian]
  | succ n ih =>
    have hb : (m.read (a + n)).toNat < 256 := (m.read (a + n)).isLt
    rw [Memory.bigEndian, Nat.pow_succ]
    have : m.bigEndian a n * 256 ≤ (256 ^ n - 1) * 256 := Nat.mul_le_mul_right _ (by omega)
    have : 0 < 256 ^ n := Nat.pow_pos (by omega)
    omega

/-- A field is a 64-bit value (R133). -/
theorem field_lt (c : Config) (k : Nat) : field c k < 2 ^ 64 := by
  have := bigEndian_lt c.rom (fieldBytes * k) fieldBytes
  simpa [field, fieldBytes] using this

/-- Bytes split at any point: the first `k` are the more significant. -/
theorem bigEndian_add (m : Memory) (a k : Nat) : ∀ n, m.bigEndian a (k + n) = m.bigEndian a k * 256 ^ n + m.bigEndian (a + k) n := by
  intro n
  induction n with
  | zero => simp [Memory.bigEndian]
  | succ n ih =>
    rw [show k + (n + 1) = (k + n) + 1 by omega, Memory.bigEndian, ih, Memory.bigEndian, Nat.pow_succ,
      Nat.add_assoc a k n, Nat.add_mul, Nat.mul_assoc, Nat.add_assoc]

/-- The big-endian value as the sum that R52 and R53 write. -/
theorem bigEndian_eq_sum (m : Memory) (a : Nat) : ∀ n,
    m.bigEndian a n = ((List.range n).map fun j => (m.read (a + j)).toNat * 256 ^ (n - 1 - j)).sum := by
  intro n
  induction n with
  | zero => rfl
  | succ n ih =>
    have hshift : ((List.range n).map fun j => (m.read (a + j)).toNat * 256 ^ (n + 1 - 1 - j)) =
        (List.range n).map fun j => (m.read (a + j)).toNat * 256 ^ (n - 1 - j) * 256 := by
      refine List.map_congr_left fun j hj => ?_
      have hj := List.mem_range.mp hj
      rw [Nat.mul_assoc, ← Nat.pow_succ]
      congr 2; omega
    rw [Memory.bigEndian, ih, List.range_succ, List.map_append, List.sum_append, hshift, List.sum_map_mul_right]
    simp

/-- Memories that agree on the bytes read give the same value. -/
theorem bigEndian_congr {m m' : Memory} {a : Nat} : ∀ {n}, (∀ j, j < n → m.read (a + j) = m'.read (a + j)) →
    m.bigEndian a n = m'.bigEndian a n := by
  intro n
  induction n with
  | zero => intro _; rfl
  | succ n ih =>
    intro h
    rw [Memory.bigEndian, Memory.bigEndian, ih (fun j hj => h j (by omega)), h n (by omega)]

/-- The four parts of a well-formed configuration. -/
theorem wf_iff (c : Config) :
    c.wf = true ↔ sizeOk c = true ∧ denseOk c = true ∧ paddingOk c = true ∧ romOk c = true := by
  simp [Config.wf, and_assoc]

theorem sizeOk_iff (c : Config) : sizeOk c = true ↔ c.romBytes % wordBytes = 0 ∧ wordBytes ≤ c.romBytes := by
  simp only [sizeOk, Bool.and_eq_true, beq_iff_eq, decide_eq_true_eq]

theorem paddingOk_iff (c : Config) :
    paddingOk c = true ↔ ∀ k, c.max.toNat + 1 ≤ k → k < 4 * depth c → field c k = 0 := by
  simp only [paddingOk, List.all_eq_true, List.mem_range, beq_iff_eq]
  constructor
  · intro h k hlo hhi
    have hk := h (k - (c.max.toNat + 1)) (by omega)
    rwa [Nat.add_sub_cancel' hlo] at hk
  · intro h j hj
    exact h _ (by omega) (by omega)

theorem romOk_iff (c : Config) : romOk c = true ↔ c.rom.wf = true ∧ ∀ cell ∈ c.rom, cell.1 < c.romBytes := by
  simp [romOk]

theorem denseOk_iff (c : Config) : denseOk c = true ↔ depth c = (c.max.toNat + 1 + 3) / 4 := by
  simp [denseOk]

/-- R132: the field of `bps` starts at byte `8 * bps`. -/
theorem fieldAddress (bps : Nat) : 32 * wordIndex bps + byteInWord bps = fieldBytes * bps := by
  simp only [wordIndex, byteInWord, offset, fieldBytes]; omega

theorem memRead_eq_none_iff {c : Config} {addr n : Nat} : memRead c addr n = none ↔ wordBytes * depth c < addr + n := by
  unfold memRead
  by_cases h : addr + n ≤ wordBytes * depth c
  · rw [if_pos h]; exact ⟨fun hn => (by cases hn), fun hn => (by omega)⟩
  · rw [if_neg h]; exact ⟨fun _ => by omega, fun _ => rfl⟩

/-- "every LOOKUP that passes the range check reads inside the ROM" (R55). -/
theorem memRead_field {c : Config} (hc : c.wf = true) {bps : Nat} (h : bps ≤ c.max.toNat) :
    memRead c (32 * wordIndex bps + byteInWord bps) fieldBytes = some (field c bps) := by
  have hd := (denseOk_iff c).mp ((wf_iff c).mp hc).2.1
  have hin : 8 * bps + 8 ≤ 32 * depth c := by omega
  rw [fieldAddress]
  simp [memRead, field, fieldBytes, wordBytes, hin]

end Sys2Proof.Machine
end

