-- ==== Sys2Proof/Laws/State.lean ====
section
/-! SUPPORT. What each register update leaves in each field of the state: one lemma per field per update, true by `rfl`. -/

namespace Sys2Proof.Machine

/-! `complete` -/

@[simp] theorem complete_opa (v : Word) (s : State) : (complete v s).opa = s.opa := rfl
@[simp] theorem complete_opb (v : Word) (s : State) : (complete v s).opb = s.opb := rfl
@[simp] theorem complete_result (v : Word) (s : State) : (complete v s).result = v := rfl
@[simp] theorem complete_status (v : Word) (s : State) : (complete v s).status = .finished 0 := rfl
@[simp] theorem complete_eng (v : Word) (s : State) : (complete v s).eng = .idle := rfl
@[simp] theorem complete_wx (v : Word) (s : State) : (complete v s).wx = s.wx := rfl
@[simp] theorem complete_wz (v : Word) (s : State) : (complete v s).wz = s.wz := rfl
@[simp] theorem complete_wn (v : Word) (s : State) : (complete v s).wn = s.wn := rfl
@[simp] theorem complete_cfg (v : Word) (s : State) : (complete v s).cfg = s.cfg := rfl
@[simp] theorem complete_order (v : Word) (s : State) : (complete v s).order = s.order := rfl
@[simp] theorem complete_received (v : Word) (s : State) : (complete v s).received = s.received := rfl
@[simp] theorem complete_freeCount (v : Word) (s : State) : (complete v s).freeCount = s.freeCount := rfl

/-! `raise` -/

@[simp] theorem raise_opa (e : ErrKind) (s : State) : (raise e s).opa = s.opa := rfl
@[simp] theorem raise_opb (e : ErrKind) (s : State) : (raise e s).opb = s.opb := rfl
@[simp] theorem raise_result (e : ErrKind) (s : State) : (raise e s).result = 0 := rfl
@[simp] theorem raise_status (e : ErrKind) (s : State) : (raise e s).status = .finished e.code := rfl
@[simp] theorem raise_eng (e : ErrKind) (s : State) : (raise e s).eng = .idle := rfl
@[simp] theorem raise_wx (e : ErrKind) (s : State) : (raise e s).wx = s.wx := rfl
@[simp] theorem raise_wz (e : ErrKind) (s : State) : (raise e s).wz = s.wz := rfl
@[simp] theorem raise_wn (e : ErrKind) (s : State) : (raise e s).wn = s.wn := rfl
@[simp] theorem raise_cfg (e : ErrKind) (s : State) : (raise e s).cfg = s.cfg := rfl
@[simp] theorem raise_order (e : ErrKind) (s : State) : (raise e s).order = s.order := rfl
@[simp] theorem raise_received (e : ErrKind) (s : State) : (raise e s).received = s.received := rfl
@[simp] theorem raise_freeCount (e : ErrKind) (s : State) : (raise e s).freeCount = s.freeCount := rfl

/-! `accept` -/

@[simp] theorem accept_opa (i : Instr) (s : State) : (accept i s).opa = s.opa := rfl
@[simp] theorem accept_opb (i : Instr) (s : State) : (accept i s).opb = s.opb := rfl
@[simp] theorem accept_result (i : Instr) (s : State) : (accept i s).result = s.result := rfl
@[simp] theorem accept_status (i : Instr) (s : State) : (accept i s).status = .running := rfl
@[simp] theorem accept_eng (i : Instr) (s : State) : (accept i s).eng = .run i s.opa s.opb := rfl
@[simp] theorem accept_wx (i : Instr) (s : State) : (accept i s).wx = s.wx := rfl
@[simp] theorem accept_wz (i : Instr) (s : State) : (accept i s).wz = s.wz := rfl
@[simp] theorem accept_wn (i : Instr) (s : State) : (accept i s).wn = s.wn := rfl
@[simp] theorem accept_cfg (i : Instr) (s : State) : (accept i s).cfg = s.cfg := rfl
@[simp] theorem accept_order (i : Instr) (s : State) : (accept i s).order = s.order := rfl
@[simp] theorem accept_received (i : Instr) (s : State) : (accept i s).received = s.received := rfl
@[simp] theorem accept_freeCount (i : Instr) (s : State) : (accept i s).freeCount = s.freeCount := rfl

/-! `forgetWork` -/

@[simp] theorem forgetWork_opa (s : State) : (forgetWork s).opa = s.opa := rfl
@[simp] theorem forgetWork_opb (s : State) : (forgetWork s).opb = s.opb := rfl
@[simp] theorem forgetWork_result (s : State) : (forgetWork s).result = s.result := rfl
@[simp] theorem forgetWork_status (s : State) : (forgetWork s).status = s.status := rfl
@[simp] theorem forgetWork_eng (s : State) : (forgetWork s).eng = s.eng := rfl
@[simp] theorem forgetWork_wx (s : State) : (forgetWork s).wx = Config.freeWord s.freeCount := rfl
@[simp] theorem forgetWork_wz (s : State) : (forgetWork s).wz = Config.freeWord (s.freeCount + 1) := rfl
@[simp] theorem forgetWork_wn (s : State) : (forgetWork s).wn = Config.freeWord (s.freeCount + 2) := rfl
@[simp] theorem forgetWork_cfg (s : State) : (forgetWork s).cfg = s.cfg := rfl
@[simp] theorem forgetWork_order (s : State) : (forgetWork s).order = s.order := rfl
@[simp] theorem forgetWork_received (s : State) : (forgetWork s).received = s.received := rfl
@[simp] theorem forgetWork_freeCount (s : State) : (forgetWork s).freeCount = s.freeCount + 3 := rfl

/-! `setOpa` -/

@[simp] theorem setOpa_opa (v : Word) (s : State) : (s.setOpa v).opa = v := rfl
@[simp] theorem setOpa_opb (v : Word) (s : State) : (s.setOpa v).opb = s.opb := rfl
@[simp] theorem setOpa_result (v : Word) (s : State) : (s.setOpa v).result = s.result := rfl
@[simp] theorem setOpa_status (v : Word) (s : State) : (s.setOpa v).status = s.status := rfl
@[simp] theorem setOpa_eng (v : Word) (s : State) : (s.setOpa v).eng = s.eng := rfl
@[simp] theorem setOpa_wx (v : Word) (s : State) : (s.setOpa v).wx = s.wx := rfl
@[simp] theorem setOpa_wz (v : Word) (s : State) : (s.setOpa v).wz = s.wz := rfl
@[simp] theorem setOpa_wn (v : Word) (s : State) : (s.setOpa v).wn = s.wn := rfl
@[simp] theorem setOpa_cfg (v : Word) (s : State) : (s.setOpa v).cfg = s.cfg := rfl
@[simp] theorem setOpa_order (v : Word) (s : State) : (s.setOpa v).order = s.order := rfl
@[simp] theorem setOpa_received (v : Word) (s : State) : (s.setOpa v).received = s.received := rfl
@[simp] theorem setOpa_freeCount (v : Word) (s : State) : (s.setOpa v).freeCount = s.freeCount := rfl

/-! `setOpb` -/

@[simp] theorem setOpb_opa (v : Word) (s : State) : (s.setOpb v).opa = s.opa := rfl
@[simp] theorem setOpb_opb (v : Word) (s : State) : (s.setOpb v).opb = v := rfl
@[simp] theorem setOpb_result (v : Word) (s : State) : (s.setOpb v).result = s.result := rfl
@[simp] theorem setOpb_status (v : Word) (s : State) : (s.setOpb v).status = s.status := rfl
@[simp] theorem setOpb_eng (v : Word) (s : State) : (s.setOpb v).eng = s.eng := rfl
@[simp] theorem setOpb_wx (v : Word) (s : State) : (s.setOpb v).wx = s.wx := rfl
@[simp] theorem setOpb_wz (v : Word) (s : State) : (s.setOpb v).wz = s.wz := rfl
@[simp] theorem setOpb_wn (v : Word) (s : State) : (s.setOpb v).wn = s.wn := rfl
@[simp] theorem setOpb_cfg (v : Word) (s : State) : (s.setOpb v).cfg = s.cfg := rfl
@[simp] theorem setOpb_order (v : Word) (s : State) : (s.setOpb v).order = s.order := rfl
@[simp] theorem setOpb_received (v : Word) (s : State) : (s.setOpb v).received = s.received := rfl
@[simp] theorem setOpb_freeCount (v : Word) (s : State) : (s.setOpb v).freeCount = s.freeCount := rfl

/-! `setOrder` -/

@[simp] theorem setOrder_opa (rest : List Event) (s : State) : (s.setOrder rest).opa = s.opa := rfl
@[simp] theorem setOrder_opb (rest : List Event) (s : State) : (s.setOrder rest).opb = s.opb := rfl
@[simp] theorem setOrder_result (rest : List Event) (s : State) : (s.setOrder rest).result = s.result := rfl
@[simp] theorem setOrder_status (rest : List Event) (s : State) : (s.setOrder rest).status = s.status := rfl
@[simp] theorem setOrder_eng (rest : List Event) (s : State) : (s.setOrder rest).eng = s.eng := rfl
@[simp] theorem setOrder_wx (rest : List Event) (s : State) : (s.setOrder rest).wx = s.wx := rfl
@[simp] theorem setOrder_wz (rest : List Event) (s : State) : (s.setOrder rest).wz = s.wz := rfl
@[simp] theorem setOrder_wn (rest : List Event) (s : State) : (s.setOrder rest).wn = s.wn := rfl
@[simp] theorem setOrder_cfg (rest : List Event) (s : State) : (s.setOrder rest).cfg = s.cfg := rfl
@[simp] theorem setOrder_order (rest : List Event) (s : State) : (s.setOrder rest).order = rest := rfl
@[simp] theorem setOrder_received (rest : List Event) (s : State) : (s.setOrder rest).received = s.received := rfl
@[simp] theorem setOrder_freeCount (rest : List Event) (s : State) : (s.setOrder rest).freeCount = s.freeCount := rfl

/-! `deliver` -/

@[simp] theorem deliver_opa (idx : BitVec 3) (v : Word) (s : State) : (s.deliver idx v).opa = s.opa := rfl
@[simp] theorem deliver_opb (idx : BitVec 3) (v : Word) (s : State) : (s.deliver idx v).opb = s.opb := rfl
@[simp] theorem deliver_result (idx : BitVec 3) (v : Word) (s : State) : (s.deliver idx v).result = s.result := rfl
@[simp] theorem deliver_status (idx : BitVec 3) (v : Word) (s : State) : (s.deliver idx v).status = s.status := rfl
@[simp] theorem deliver_eng (idx : BitVec 3) (v : Word) (s : State) : (s.deliver idx v).eng = s.eng := rfl
@[simp] theorem deliver_wx (idx : BitVec 3) (v : Word) (s : State) : (s.deliver idx v).wx = s.wx := rfl
@[simp] theorem deliver_wz (idx : BitVec 3) (v : Word) (s : State) : (s.deliver idx v).wz = s.wz := rfl
@[simp] theorem deliver_wn (idx : BitVec 3) (v : Word) (s : State) : (s.deliver idx v).wn = s.wn := rfl
@[simp] theorem deliver_cfg (idx : BitVec 3) (v : Word) (s : State) : (s.deliver idx v).cfg = s.cfg := rfl
@[simp] theorem deliver_order (idx : BitVec 3) (v : Word) (s : State) : (s.deliver idx v).order = s.order := rfl
@[simp] theorem deliver_received (idx : BitVec 3) (v : Word) (s : State) : (s.deliver idx v).received = (idx, v) :: s.received := rfl
@[simp] theorem deliver_freeCount (idx : BitVec 3) (v : Word) (s : State) : (s.deliver idx v).freeCount = s.freeCount := rfl

/-! `resetEvent` -/

@[simp] theorem resetEvent_opa (s : State) : (resetEvent s).opa = 0 := rfl
@[simp] theorem resetEvent_opb (s : State) : (resetEvent s).opb = 0 := rfl
@[simp] theorem resetEvent_result (s : State) : (resetEvent s).result = 0 := rfl
@[simp] theorem resetEvent_status (s : State) : (resetEvent s).status = .atReset := rfl
@[simp] theorem resetEvent_eng (s : State) : (resetEvent s).eng = .idle := rfl
@[simp] theorem resetEvent_wx (s : State) : (resetEvent s).wx = Config.freeWord s.freeCount := rfl
@[simp] theorem resetEvent_wz (s : State) : (resetEvent s).wz = Config.freeWord (s.freeCount + 1) := rfl
@[simp] theorem resetEvent_wn (s : State) : (resetEvent s).wn = Config.freeWord (s.freeCount + 2) := rfl
@[simp] theorem resetEvent_cfg (s : State) : (resetEvent s).cfg = s.cfg := rfl
@[simp] theorem resetEvent_order (s : State) : (resetEvent s).order = s.order := rfl
@[simp] theorem resetEvent_received (s : State) : (resetEvent s).received = s.received := rfl
@[simp] theorem resetEvent_freeCount (s : State) : (resetEvent s).freeCount = s.freeCount + 3 := rfl

@[simp] theorem setOrder_setOrder (x y : List Event) (s : State) : (s.setOrder x).setOrder y = s.setOrder y := rfl

end Sys2Proof.Machine
end

