-- ==== Sys2Proof/Laws/Ops.lean ====
section
/-! SUPPORT. What the shared operations over registers can do: the slots, the host's writes and reads, the STATUS words. -/

namespace Sys2Proof.Machine

@[simp] theorem Slot.ofIdx_idx (r : Slot) : Slot.ofIdx r.idx = r := by cases r <;> decide

@[simp] theorem Slot.idx_ofIdx : ∀ idx : BitVec 3, (Slot.ofIdx idx).idx = idx := by decide

@[simp] theorem ofIdx_0 : Slot.ofIdx 0#3 = .ctrl := rfl
@[simp] theorem ofIdx_1 : Slot.ofIdx 1#3 = .status := rfl
@[simp] theorem ofIdx_2 : Slot.ofIdx 2#3 = .opa := rfl
@[simp] theorem ofIdx_3 : Slot.ofIdx 3#3 = .opb := rfl
@[simp] theorem ofIdx_4 : Slot.ofIdx 4#3 = .result := rfl
@[simp] theorem ofIdx_5 : Slot.ofIdx 5#3 = .maxbps := rfl
@[simp] theorem ofIdx_6 : Slot.ofIdx 6#3 = .tableWords := rfl
@[simp] theorem ofIdx_7 : Slot.ofIdx 7#3 = .reserved := rfl

@[simp] theorem word_atReset : Status.atReset.word = 0x00#256 := by decide

@[simp] theorem word_running : Status.running.word = 0x01#256 := by decide

@[simp] theorem word_success : (Status.finished 0#4).word = 0x02#256 := by decide

/-- The STATUS word as a number: BUSY, DONE and ERR at their places (R24). -/
theorem word_toNat (st : Status) :
    st.word.toNat = (if st.busy then 1 else 0) + 2 * (if st.done then 1 else 0) + 16 * st.err.toNat := by
  obtain ⟨b, d, e⟩ := st
  cases b <;> cases d <;> revert e <;> decide

theorem word_error (e : ErrKind) : (Status.finished e.code).word =
    match e with | .arithmeticOverflow => 0x12#256 | .outOfRange => 0x22#256 | .illegalCommand => 0x32#256 := by
  cases e <;> decide

/-- A CTRL write is ignored, accepts the command its word encodes, or raises IllegalCommand (R23). -/
theorem ctrlWrite_cases (v : Word) (s : State) :
    (s.status.busy = true ∧ ctrlWrite v s = s) ∨
    (s.status.busy = false ∧ ∃ i, decode v = .ok i ∧ ctrlWrite v s = accept i s) ∨
    (s.status.busy = false ∧ decode v = .error .illegalCommand ∧ ctrlWrite v s = raise .illegalCommand s) := by
  unfold ctrlWrite
  cases hb : s.status.busy
  · cases hd : decode v with
    | ok i => exact .inr (.inl ⟨rfl, i, rfl, by simp⟩)
    | error e => cases e; exact .inr (.inr ⟨rfl, rfl, by simp⟩)
  · exact .inl ⟨rfl, by simp⟩

/-- Everything a register write can do: nothing, a command issue, or a new operand while idle. -/
theorem regWrite_cases (idx : BitVec 3) (v : Word) (s : State) :
    regWrite idx v s = s ∨
    (Slot.ofIdx idx = .ctrl ∧ regWrite idx v s = ctrlWrite v s) ∨
    (Slot.ofIdx idx = .opa ∧ s.status.busy = false ∧ regWrite idx v s = s.setOpa v) ∨
    (Slot.ofIdx idx = .opb ∧ s.status.busy = false ∧ regWrite idx v s = s.setOpb v) := by
  unfold regWrite
  cases h : Slot.ofIdx idx <;> cases hb : s.status.busy <;> simp

/-- While a command runs every register write is dropped (R185). -/
theorem regWrite_busy {s : State} (h : s.status.busy = true) (idx : BitVec 3) (v : Word) : regWrite idx v s = s := by
  unfold regWrite ctrlWrite
  cases Slot.ofIdx idx <;> simp [h]

end Sys2Proof.Machine
end

