-- ==== Sys2Proof/Laws/PerInstr.lean ====
section
/-! SUPPORT. Facts about every command as syntax, one lemma per constructor. -/

namespace Sys2Proof.Laws

/-- Encoding family: a well-formed command's word decodes to it, has RSV 0, and carries its opcode in bits 7:0 (spec
30_encoding R70 to R72). -/
def Encoding.Statement (i : Instr) : Prop :=
  i.wf = true → decode (encode i) = .ok i ∧ (encode i).extractLsb' 0 8 = opcode i ∧ (encode i).extractLsb' 8 248 = 0

theorem Encoding.pow : Encoding.Statement .pow := fun _ => ⟨rfl, by decide, by decide⟩

theorem Encoding.lookup : Encoding.Statement .lookup := fun _ => ⟨rfl, by decide, by decide⟩

end Sys2Proof.Laws
end

