-- ==== Sys2Proof/Laws/Pow.lean ====
section
/-! SUPPORT. The checked multiply and the POW loop: what they answer, and their bounds. -/

namespace Sys2Proof.Machine

theorem RAY_pos : 0 < RAY := by decide

/-- The multiply succeeds exactly where both checks pass, with the rounded quotient (R101). -/
theorem mulround_ok_iff {w p q v : Nat} :
    mulround w p q = .ok v ↔ p * q < 2 ^ w ∧ p * q + HALF < 2 ^ w ∧ v = (p * q + HALF) / RAY := by
  unfold mulround
  split
  · simp; omega
  · split
    · simp; omega
    · simp; constructor
      · rintro rfl; exact ⟨by omega, by omega, rfl⟩
      · rintro ⟨_, _, rfl⟩; rfl

/-- The result of a multiply is in the integer range (R101). -/
theorem mulround_lt {w p q v : Nat} (h : mulround w p q = .ok v) : v < 2 ^ w := by
  obtain ⟨_, h2, rfl⟩ := mulround_ok_iff.mp h
  exact Nat.lt_of_le_of_lt (Nat.div_le_self _ _) h2

/-- Everything a pass that succeeds can do. -/
theorem powPass_cases {w : Nat} {k k' : Work} (h : powPass w k = .ok k') :
    ∃ x, mulround w k.wx k.wx = .ok x ∧ k'.wx = x ∧ k'.wn = k.wn / 2 ∧ k'.squarings = k.squarings + 1 ∧
      ((k.wn % 2 = 1 ∧ mulround w k.wz x = .ok k'.wz ∧ k'.multiplies = k.multiplies + 1) ∨
       (k.wn % 2 ≠ 1 ∧ k'.wz = k.wz ∧ k'.multiplies = k.multiplies)) := by
  unfold powPass at h
  split at h
  · cases h
  · rename_i x hx
    split at h
    · rename_i hodd
      split at h
      · cases h
      · rename_i z hz
        cases h; exact ⟨x, hx, rfl, rfl, rfl, .inl ⟨hodd, hz, rfl⟩⟩
    · rename_i heven
      cases h; exact ⟨x, hx, rfl, rfl, rfl, .inr ⟨heven, rfl, rfl⟩⟩

/-- One unfolding of the loop. -/
theorem powLoop_succ (w fuel : Nat) (k : Work) :
    powLoop w (fuel + 1) k =
      if k.wn = 0 then .ok k
      else match powPass w k with
        | .error c => .error c
        | .ok k' => powLoop w fuel k' := rfl

@[simp] theorem powLoop_done (w fuel : Nat) {k : Work} (h : k.wn = 0) : powLoop w fuel k = .ok k := by
  cases fuel with
  | zero => rfl
  | succ f => simp [powLoop_succ, h]

/-- The loop's fuel is enough: it ends with no exponent left (R190). -/
theorem powLoop_ends {w : Nat} : ∀ {fuel : Nat} {k k' : Work}, k.wn < 2 ^ fuel → powLoop w fuel k = .ok k' → k'.wn = 0 := by
  intro fuel
  induction fuel with
  | zero => intro k k' hlt h; cases h; simpa using hlt
  | succ f ih =>
    intro k k' hlt h
    rw [powLoop_succ] at h
    split at h
    · cases h; assumption
    · split at h
      · cases h
      · rename_i k1 hk
        obtain ⟨_, _, _, hn, _⟩ := powPass_cases hk
        exact ih (by rw [hn]; omega) h

/-- The accumulator stays in the integer range. -/
theorem powLoop_lt {w : Nat} : ∀ {fuel : Nat} {k k' : Work}, k.wz < 2 ^ w → powLoop w fuel k = .ok k' → k'.wz < 2 ^ w := by
  intro fuel
  induction fuel with
  | zero => intro k k' hlt h; cases h; exact hlt
  | succ f ih =>
    intro k k' hlt h
    rw [powLoop_succ] at h
    split at h
    · cases h; exact hlt
    · split at h
      · cases h
      · rename_i k1 hk
        obtain ⟨_, _, _, _, _, hz | hz⟩ := powPass_cases hk
        · exact ih (mulround_lt hz.2.1) h
        · exact ih (by rw [hz.2.1]; exact hlt) h

/-- A POW that succeeds has a `W`-bit result: narrowing it to a register loses nothing (R102). -/
theorem powRun_lt {a b : Nat} {k : Work} (ha : a < 2 ^ W) (h : powRun W a b = .ok k) : k.wz < 2 ^ W := by
  have hR : RAY < 2 ^ W := by decide
  unfold powRun at h
  split at h
  · cases h; simp only; split
    · exact hR
    · exact Nat.pow_pos (by omega)
  · refine powLoop_lt ?_ h
    simp only [powInit]; split
    · exact hR
    · exact ha

/-- Everything POW can do: it completes with the run's result, or raises ArithmeticOverflow (R112). -/
theorem execPow_cases (s : State) :
    (∃ k, powRun W s.operandA.toNat s.operandB.toNat = .ok k ∧
      execPow s = .next (complete (BitVec.ofNat W k.wz) (forgetWork s))) ∨
    (∃ c, powRun W s.operandA.toNat s.operandB.toNat = .error c ∧
      execPow s = .next (raise .arithmeticOverflow (forgetWork s))) := by
  unfold execPow
  cases h : powRun W s.operandA.toNat s.operandB.toNat with
  | ok k => exact .inl ⟨k, rfl, rfl⟩
  | error c => exact .inr ⟨c, rfl, rfl⟩

end Sys2Proof.Machine
end

