-- ==== Sys2Proof/Laws/Step.lean ====
section
/-! SUPPORT. What LOOKUP, the engine's turn and one step can do. -/

namespace Sys2Proof.Machine

/-- Everything LOOKUP can do (R135). -/
theorem execLookup_cases (s : State) :
    (s.cfg.max.toNat < s.operandA.toNat ∧ execLookup s = .next (raise .outOfRange s)) ∨
    (s.operandA.toNat ≤ s.cfg.max.toNat ∧
      ((∃ delta, memRead s.cfg (32 * wordIndex s.operandA.toNat + byteInWord s.operandA.toNat) fieldBytes = some delta ∧
          execLookup s = .next (complete (BitVec.ofNat W (delta + RAY)) s)) ∨
       (memRead s.cfg (32 * wordIndex s.operandA.toNat + byteInWord s.operandA.toNat) fieldBytes = none ∧
          execLookup s = .fault .romAddressAbsent))) := by
  unfold execLookup
  split
  · rename_i h; exact .inl ⟨h, rfl⟩
  · rename_i h
    refine .inr ⟨by omega, ?_⟩
    split
    · rename_i delta hd; exact .inl ⟨delta, hd, rfl⟩
    · rename_i hd; exact .inr ⟨hd, rfl⟩

/-- In a well-formed configuration an in-range LOOKUP completes with its field plus `RAY`. -/
theorem execLookup_inRange {s : State} (hc : s.cfg.wf = true) (h : s.operandA.toNat ≤ s.cfg.max.toNat) :
    execLookup s = .next (complete (BitVec.ofNat W (field s.cfg s.operandA.toNat + RAY)) s) := by
  simp [execLookup, Nat.not_lt.mpr h, memRead_field hc h]

/-- The next state LOOKUP answers is a completion or an error of the state itself. -/
theorem execLookup_next {s t : State} (h : execLookup s = .next t) : (∃ v, t = complete v s) ∨ ∃ e, t = raise e s := by
  obtain ⟨_, hk⟩ | ⟨_, ⟨_, _, hk⟩ | ⟨_, hk⟩⟩ := execLookup_cases s <;> rw [hk] at h <;> cases h
  · exact .inr ⟨_, rfl⟩
  · exact .inl ⟨_, rfl⟩

/-- The next state POW answers is a completion or an error of the state with its working registers forgotten. -/
theorem execPow_next {s t : State} (h : execPow s = .next t) :
    (∃ v, t = complete v (forgetWork s)) ∨ ∃ e, t = raise e (forgetWork s) := by
  obtain ⟨_, _, hk⟩ | ⟨_, _, hk⟩ := execPow_cases s <;> rw [hk] at h <;> cases h
  · exact .inl ⟨_, rfl⟩
  · exact .inr ⟨_, rfl⟩

/-- The two shapes of a command's completion: what `exec` answers as a next state is a `complete` or a `raise`, of the state
itself (LOOKUP) or of the state with its working registers forgotten (POW). -/
theorem exec_next {i : Instr} {s t : State} (h : exec i s = .next t) :
    (∃ v, t = complete v s ∨ t = complete v (forgetWork s)) ∨ (∃ e, t = raise e s ∨ t = raise e (forgetWork s)) := by
  cases i with
  | pow => exact (execPow_next h).imp (fun ⟨v, hv⟩ => ⟨v, .inr hv⟩) (fun ⟨e, he⟩ => ⟨e, .inr he⟩)
  | lookup => exact (execLookup_next h).imp (fun ⟨v, hv⟩ => ⟨v, .inl hv⟩) (fun ⟨e, he⟩ => ⟨e, .inl he⟩)

/-- Running a command in an idle state is accepting it and completing it with no host event between (assumption log 8). -/
theorem exec_accept_visible (i : Instr) (s : State) (h : s.eng = .idle) :
    (accept i s).operandA = s.operandA ∧ (accept i s).operandB = s.operandB := by
  simp [State.operandA, State.operandB, h]

/-- Everything a step that answers a next state can do: one event of the order, or the engine's turn when none is left. -/
theorem step_cases {s t : State} (h : step s = .next t) :
    s.cfg.wf = true ∧
    ((∃ idx v rest, s.order = .regWrite idx v :: rest ∧ t = regWrite idx v (s.setOrder rest)) ∨
     (∃ idx rest, s.order = .regRead idx :: rest ∧
        t = (s.setOrder rest).deliver idx (regRead idx (s.setOrder rest))) ∨
     (∃ rest, s.order = .reset :: rest ∧ t = resetEvent (s.setOrder rest)) ∨
     (∃ rest, s.order = .engine :: rest ∧ engineTurn (s.setOrder rest) = .next t) ∨
     (s.order = [] ∧ engineTurn s = .next t)) := by
  unfold step at h
  split at h
  · rename_i hc
    refine ⟨hc, ?_⟩
    unfold nextEvent at h
    split at h
    · rename_i e rest ho
      cases e with
      | regWrite idx v => cases h; exact .inl ⟨idx, v, rest, ho, rfl⟩
      | regRead idx => cases h; exact .inr (.inl ⟨idx, rest, ho, rfl⟩)
      | reset => cases h; exact .inr (.inr (.inl ⟨rest, ho, rfl⟩))
      | engine => exact .inr (.inr (.inr (.inl ⟨rest, ho, h⟩)))
    · rename_i ho; exact .inr (.inr (.inr (.inr ⟨ho, h⟩)))
  · cases h

section
variable {s : State} (hc : s.cfg.wf = true)
include hc

/-- A register write that is next is performed (R21). -/
theorem step_regWrite {idx : BitVec 3} {v : Word} {rest : List Event} (ho : s.order = .regWrite idx v :: rest) :
    step s = .next (regWrite idx v (s.setOrder rest)) := by
  simp [step, hc, nextEvent, ho, applyEvent]

/-- A register read that is next delivers the slot's value (R33). -/
theorem step_regRead {idx : BitVec 3} {rest : List Event} (ho : s.order = .regRead idx :: rest) :
    step s = .next ((s.setOrder rest).deliver idx (regRead idx (s.setOrder rest))) := by
  simp [step, hc, nextEvent, ho, applyEvent]

/-- A Reset that is next is performed (R180). -/
theorem step_reset {rest : List Event} (ho : s.order = .reset :: rest) : step s = .next (resetEvent (s.setOrder rest)) := by
  simp [step, hc, nextEvent, ho, applyEvent]

/-- The engine's turn that is next. -/
theorem step_engine {rest : List Event} (ho : s.order = .engine :: rest) : step s = engineTurn (s.setOrder rest) := by
  simp [step, hc, nextEvent, ho, applyEvent]

/-- With no event left to come the engine has its turn. -/
theorem step_nil (ho : s.order = []) : step s = engineTurn s := by
  simp [step, hc, nextEvent, ho]

end

/-- While a command runs the engine's turn is its Complete event (R39). -/
theorem engineTurn_run {s : State} {i : Instr} {a b : Word} (h : s.eng = .run i a b) : engineTurn s = exec i s := by
  simp [engineTurn, h]

/-- While idle the engine's turn changes nothing (R164). -/
theorem engineTurn_idle {s : State} (h : s.eng = .idle) : engineTurn s = .next s := by
  simp [engineTurn, h]

/-- Everything the engine's turn can do: complete the running command, or nothing while idle (R39, R164). -/
theorem engineTurn_cases {s t : State} (h : engineTurn s = .next t) :
    (s.eng = .idle ∧ t = s) ∨ ∃ i a b, s.eng = .run i a b ∧ exec i s = .next t := by
  unfold engineTurn at h
  split at h
  · rename_i i a b he; exact .inr ⟨i, a, b, he, h⟩
  · rename_i he; cases h; exact .inl ⟨he, rfl⟩

end Sys2Proof.Machine
end

