-- ==== Sys2Proof/Laws/Run.lean ====
section
/-! SUPPORT. Runs of several steps: their unfolding, and the induction that carries a property along every run. -/

namespace Sys2Proof.Machine

@[simp] theorem runSteps_zero (s : State) : runSteps 0 s = .next s := rfl

theorem coreRun_next (M : Host.Core) (k : Nat) {s t : M.State} (h : M.step s = .next t) : M.run (k + 1) s = M.run k t := by
  simp [Host.Core.run, h]

theorem coreRun_cases (M : Host.Core) {k : Nat} {s t : M.State} (h : M.run (k + 1) s = .next t) :
    ∃ u, M.step s = .next u ∧ M.run k u = .next t := by
  cases hs : M.step s with
  | next u => exact ⟨u, rfl, by simpa [Host.Core.run, hs] using h⟩
  | fault r => simp [Host.Core.run, hs] at h
  | refused r => simp [Host.Core.run, hs] at h

theorem runSteps_succ_of_next {s t : State} (k : Nat) (h : step s = .next t) : runSteps (k + 1) s = runSteps k t :=
  coreRun_next Sys2Proof.core k h

/-- The first step of a run that answers a next state. -/
theorem runSteps_succ_cases {s t : State} {k : Nat} (h : runSteps (k + 1) s = .next t) :
    ∃ u, step s = .next u ∧ runSteps k u = .next t :=
  coreRun_cases Sys2Proof.core h

/-- Runs compose. -/
theorem runSteps_add {s u : State} {k : Nat} (l : Nat) (h : runSteps k s = .next u) : runSteps (k + l) s = runSteps l u := by
  induction k generalizing s with
  | zero => cases h; rw [Nat.zero_add]
  | succ k ih =>
    obtain ⟨v, hv, hk⟩ := runSteps_succ_cases h
    rw [show k + 1 + l = (k + l) + 1 by omega, runSteps_succ_of_next _ hv, ih hk]

/-- What every step keeps, every run keeps. -/
theorem runSteps_keeps {P : State → Prop} (hstep : ∀ s t, P s → step s = .next t → P t) :
    ∀ {k : Nat} {s t : State}, P s → runSteps k s = .next t → P t := by
  intro k
  induction k with
  | zero => intro s t hp h; cases h; exact hp
  | succ k ih =>
    intro s t hp h
    obtain ⟨u, hu, hk⟩ := runSteps_succ_cases h
    exact ih (hstep s u hp hu) hk

end Sys2Proof.Machine
end

