-- ==== Sys2Proof/Tests/Slice0.lean ====
section
/-! SUPPORT. The model's own tests, expected values from spec 95_test_vectors and the rules' worked examples; and for every
statement with hypotheses a concrete state that meets them. -/

namespace Sys2Proof.Tests

open Sys2Proof Sys2Proof.Machine

/-! ## A small block: ROM T1 of 95_test_vectors section 4.1 -/

def t1Bytes : List Byte :=
  [0, 0, 0, 0, 0, 0, 0, 0] ++ [0, 0, 0, 0, 0, 0, 0, 1] ++ [1, 2, 3, 4, 5, 6, 7, 8] ++
  [0x04, 0x60, 0xf6, 0x6c, 0xea, 0xdf, 0xd0, 0xa5] ++ [0xff, 0xff, 0xff, 0xff, 0xff, 0xff, 0xff, 0xff] ++
  [0x01, 0x23, 0x45, 0x67, 0x89, 0xab, 0xcd, 0xef] ++ [0, 0, 0, 0, 0, 0, 0, 0] ++ [0, 0, 0, 0, 0, 0, 0, 0]

def t1 : Config := { romBytes := 64, rom := Memory.ofBytes t1Bytes, max := 5 }

/-- An idle block with ROM T1 and events to come. -/
def idle (order : List Event) : State := { State.resetWith t1 with order := order }

/-- A block with ROM T1 that runs a command. -/
def busy (i : Instr) (a b : Word) (order : List Event) : State :=
  { State.resetWith t1 with opa := a, opb := b, status := .running, eng := .run i a b, order := order }

/-- RESULT and STATUS after an outcome. -/
def seen : Host.Outcome State Fault Refusal → Option (Word × Word)
  | .next t => some (t.result, t.status.word)
  | _ => none

/-- Whether an outcome is a next state of which `p` holds. -/
def nextWhere (p : State → Bool) : Host.Outcome State Fault Refusal → Bool
  | .next t => p t
  | _ => false

theorem next_of_nextWhere {p : State → Bool} {o : Host.Outcome State Fault Refusal} (h : nextWhere p o = true) :
    ∃ t, o = .next t ∧ p t = true := by
  cases o with
  | next t => exact ⟨t, rfl, h⟩
  | fault r => cases h
  | refused r => cases h

theorem next_exists {o : Host.Outcome State Fault Refusal} (h : nextWhere (fun _ => true) o = true) : ∃ t, o = .next t :=
  (next_of_nextWhere h).imp fun _ ht => ht.1

theorem t1_wf : t1.wf = true := by decide +kernel

/-! ## Well-formedness: each check refuses an ill-formed term (20_memory R55) -/

theorem test_size_refused : sizeOk { t1 with romBytes := 65 } = false ∧ sizeOk { t1 with romBytes := 0 } = false := by
  decide +kernel

theorem test_dense_refused : denseOk { t1 with max := 8 } = false ∧ denseOk { t1 with max := 3 } = false := by
  decide +kernel

theorem test_padding_refused : paddingOk { t1 with max := 4 } = false := by decide +kernel

theorem test_rom_outside_refused : romOk { t1 with rom := t1.rom ++ [(64, 1)] } = false := by decide +kernel

theorem test_rom_noncanonical_refused : romOk { t1 with rom := [(3, 0)] } = false ∧ romOk { t1 with rom := [(3, 1), (3, 1)] } = false := by
  decide +kernel

theorem test_config_refused :
    Config.wf { t1 with romBytes := 65 } = false ∧ Config.wf { t1 with max := 8 } = false ∧
    Config.wf { t1 with max := 4 } = false ∧ Config.wf { t1 with rom := [(3, 0)] } = false := by
  decide +kernel

/-! ## Decoding (30_encoding R70 to R74): words written out bit field by bit field -/

theorem test_decode_pow : decode ((0 : BitVec 248) ++ 0b00000001#8) = .ok .pow := rfl

theorem test_decode_lookup : decode ((0 : BitVec 248) ++ 0b00000010#8) = .ok .lookup := rfl

theorem test_decode_reserved_bits :
    (decode ((1 : BitVec 248) ++ 0b00000001#8)).toOption = none ∧ (decode ((1 : BitVec 248) ++ 0b00000010#8)).toOption = none ∧
    (decode 0x00).toOption = none ∧ (decode 0x03).toOption = none := by
  decide +kernel

/-! ## Operations and instructions -/

/-- 95_test_vectors 2.1: `mulround(1, HALF) = 1`, `mulround(3, HALF) = 2`, an exact half rounds up. -/
theorem test_mulround_half_up :
    (mulround W 1 HALF).toOption = some 1 ∧ (mulround W 1 (HALF - 1)).toOption = some 0 ∧ (mulround W 3 HALF).toOption = some 2 := by
  decide +kernel

/-- 95_test_vectors 2.4, the rules at `W = 100`: check A's smallest failing base, and the base below it. -/
theorem test_check_a_at_100 :
    (match powRun 100 1125677840338092 2 with | .error c => c == .wrap | .ok _ => false) = true ∧
    (powRun 100 1125677840338091 2).toOption.map Work.wz = some 1267 := by
  decide +kernel

/-- 95_test_vectors 2.2: rounding at each step gives ...026, one final rounding would give ...025. -/
theorem test_pow_rounds_each_step :
    seen (exec .pow (busy .pow 1500000000000000000000000001 5 [])) = some (7593750000000000000000000026, 0x02) := by
  decide +kernel

/-- 95_test_vectors 2.2: the multiply into `z` of iteration 1 fails check M. -/
theorem test_pow_overflow :
    seen (exec .pow (busy .pow (BitVec.ofNat W (2 ^ 128 - 1)) 3 [])) = some (0, 0x12) := by
  decide +kernel

/-- 95_test_vectors 4.2: `LOOKUP(2)` is big-endian. -/
theorem test_lookup_big_endian :
    seen (exec .lookup (busy .lookup 2 7 [])) = some (1000000000072623859790382856, 0x02) := by
  decide +kernel

/-- 95_test_vectors 4.2: `LOOKUP(2^253)` is out of range, its offset does not wrap. -/
theorem test_lookup_no_wrap :
    seen (exec .lookup (busy .lookup (BitVec.ofNat W (2 ^ 253)) 0 [])) = some (0, 0x22) := by
  decide +kernel

/-- 95_test_vectors 5.2: the word 0x101. -/
theorem test_illegal_word : seen (step (idle [.regWrite 0 0x101])) = some (0, 0x32) := by decide +kernel

/-- 20_memory R54 and 41_packedratestore R141: the dense scenario in small, two entries. -/
theorem test_packed_lookup :
    seen (exec .lookup { State.resetWith (pack [RAY, RAY + 5]) with eng := .run .lookup 1 0 }) = some (BitVec.ofNat W (RAY + 5), 0x02) := by
  decide +kernel

/-- The first command after reset is the one `withFetchWord` places (70_reset R183: `POW(0, 0) = RAY`). -/
theorem test_first_pow : seen (step (State.reset.withFetchWord 256 1)) = some (BitVec.ofNat W RAY, 0x02) := by decide +kernel

/-- Likewise `LOOKUP(0)` of a block whose field 0 is 0. -/
theorem test_first_lookup : seen (step (State.reset.withFetchWord 256 2)) = some (BitVec.ofNat W RAY, 0x02) := by decide +kernel

/-! ## Witnesses: for every statement with hypotheses a concrete state that meets them -/

theorem busy_inv (i : Instr) (a b : Word) (order : List Event) : (busy i a b order).Inv where
  config := t1_wf
  status := .inr (.inl rfl)
  busy := by simp [busy, Status.running]
  latched := by rintro j x y h; cases h; exact ⟨rfl, rfl⟩
  error := by simp [busy, Status.running]
  fresh := by simp [busy, Status.running]

/-- A block that reported IllegalCommand, with events to come. -/
def failed (order : List Event) : State := { idle order with opa := 9, status := .finished 3 }

theorem failed_inv (order : List Event) : (failed order).Inv where
  config := t1_wf
  status := .inr (.inr (.inr ⟨.illegalCommand, rfl⟩))
  busy := by simp [failed, idle, State.resetWith, Status.finished]
  latched := by intro j x y h; cases h
  error := fun _ => rfl
  fresh := by simp [failed, Status.finished]

/-- A block whose last command completed with RESULT 7, with events to come. -/
def completed (order : List Event) : State := { idle order with result := 7, status := .finished 0 }

theorem completed_inv (order : List Event) : (completed order).Inv where
  config := t1_wf
  status := .inr (.inr (.inl rfl))
  busy := by simp [completed, idle, State.resetWith, Status.finished]
  latched := by intro j x y h; cases h
  error := by simp [completed, Status.finished]
  fresh := by simp [completed, Status.finished]

theorem witness_ConfigurationCheckSaysR55 :
    t1.wf = true ∧ (idle []).cfg = t1 ∧ ({ idle [] with cfg := { t1 with max := 8 } } : State).cfg.wf = false := by
  decide +kernel

theorem witness_FieldIsShiftedMaskedWord : (0 : Nat) < 4 ∧ (3 : Nat) < 4 := by decide

theorem witness_LookupOffsets : t1.wf = true ∧ 0 ≤ t1.max.toNat ∧ 5 ≤ t1.max.toNat := by decide +kernel

theorem witness_DecodeComparesWholeWord :
    (0x03 : Word) ≠ 0x01 ∧ (0x03 : Word) ≠ 0x02 ∧ (1 : BitVec 248) ≠ 0 ∧ (busy .pow 1 1 []).status.busy = true := by
  decide

theorem witness_DecodeEncodeAgree : Instr.pow.wf = true ∧ Instr.lookup.wf = true ∧ decode 0x01 = .ok .pow ∧ decode 0x02 = .ok .lookup :=
  ⟨rfl, rfl, rfl, rfl⟩

theorem witness_ResetValues :
    (∃ c, State.resetWith t1 = State.resetWith c) ∧ ∃ s, resetEvent (busy .pow 1 1 []) = resetEvent s :=
  ⟨⟨_, rfl⟩, ⟨_, rfl⟩⟩

theorem witness_ResetAbandonsRunningCommand :
    (busy .pow 7 2 [.reset]).cfg.wf = true ∧ (busy .pow 7 2 [.reset]).order = [.reset] := ⟨t1_wf, rfl⟩

theorem witness_StepRunsTheCommand :
    (busy .lookup 7 2 [.engine]).cfg.wf = true ∧ (busy .lookup 7 2 [.engine]).eng = .run .lookup 7 2 ∧
    (busy .lookup 7 2 [.engine]).order = [.engine] ∧ (busy .pow 7 2 []).order = [] ∧
    (idle [.regWrite 0 0x01]).status.busy = false ∧ (idle [.regWrite 0 0x01]).order = [.regWrite 0 0x01] ∧
    decode 0x01 = .ok .pow ∧ (idle [.engine]).eng = .idle ∧ (idle [.engine]).order = [.engine] ∧ (idle []).order = [] :=
  ⟨t1_wf, rfl, rfl, rfl, rfl, rfl, rfl, rfl, rfl, rfl⟩

theorem witness_FetchedWordRunsNext :
    (idle []).cfg.wf = true ∧ 2 < 2 ^ 256 ∧ decodeTableWord 256 2 = some .lookup ∧ decodeTableWord 256 (2 ^ 256 - 1) = none := by
  decide +kernel

theorem witness_ReadsReturnRegisters : (idle [.regRead 7]).cfg.wf = true ∧ (idle [.regRead 7]).order = [.regRead 7] :=
  ⟨t1_wf, rfl⟩

theorem witness_ReadOnlyWritesIgnored :
    (idle [.regWrite 7 9]).cfg.wf = true ∧ (7 : BitVec 3) ∈ [(1 : BitVec 3), 4, 5, 6, 7] ∧
    (idle [.regWrite 7 9]).order = [.regWrite 7 9] := ⟨t1_wf, by decide, rfl⟩

theorem witness_IdleOperandWrites :
    (idle [.regWrite 2 9]).cfg.wf = true ∧ (idle [.regWrite 2 9]).status.busy = false ∧
    (idle [.regWrite 2 9]).order = [.regWrite 2 9] ∧ (idle [.regWrite 3 9]).order = [.regWrite 3 9] := ⟨t1_wf, rfl, rfl, rfl⟩

theorem witness_ControlWriteDecidesTheCommand :
    (busy .pow 1 1 [.regWrite 0 2]).cfg.wf = true ∧ (busy .pow 1 1 [.regWrite 0 2]).order = [.regWrite 0 2] ∧
    (busy .pow 1 1 [.regWrite 0 2]).status.busy = true ∧ (idle [.regWrite 0 1]).status.busy = false ∧
    (idle [.regWrite 0 1]).order = [.regWrite 0 1] ∧ (idle [.regWrite 0 2]).order = [.regWrite 0 2] ∧
    (idle [.regWrite 0 3]).order = [.regWrite 0 3] ∧ (3 : Word) ≠ 0x01 ∧ (3 : Word) ≠ 0x02 :=
  ⟨t1_wf, rfl, rfl, rfl, rfl, rfl, rfl, by decide, by decide⟩

theorem witness_IllegalCommandAtOnce :
    (failed [.regWrite 0 0]).Inv ∧ (failed [.regWrite 0 0]).order = [.regWrite 0 0] ∧ (failed [.regWrite 0 0]).status.busy = false ∧
    (0 : Word) ≠ 0x01 ∧ (0 : Word) ≠ 0x02 ∧ (busy .pow 1 1 [.regWrite 0 0]).Inv ∧
    (busy .pow 1 1 [.regWrite 0 0]).status.busy = true :=
  ⟨failed_inv _, rfl, rfl, by decide, by decide, busy_inv _ _ _ _, rfl⟩

theorem witness_WriteRacesCompletion :
    (busy .pow 8 2 [.regWrite 2 7]).Inv ∧ (busy .pow 8 2 [.regWrite 2 7]).eng = .run .pow 8 2 ∧
    (busy .pow 8 2 [.regWrite 2 7]).order = [.regWrite 2 7] := ⟨busy_inv _ _ _ _, rfl, rfl⟩

/-- One state for each way RESULT changes, the last two after a RESULT of 7, and a busy state that stays busy. -/
theorem witness_ResultChangesOnlyAtCompletion :
    (busy .pow 3 1 []).Inv ∧ (∃ t, step (busy .pow 3 1 []) = .next t ∧ t.result ≠ 0) ∧ (busy .pow 3 1 []).status.busy = true ∧
    (∃ t, step (busy .pow 3 1 [.regWrite 2 4]) = .next t ∧ t.status.busy = true) ∧
    (completed [.regWrite 0 3]).Inv ∧ (∃ t, step (completed [.regWrite 0 3]) = .next t ∧ t.result ≠ 7) ∧
    (completed [.reset]).Inv ∧ (∃ t, step (completed [.reset]) = .next t ∧ t.result ≠ 7) := by
  refine ⟨busy_inv _ _ _ _, ?_, rfl, ?_, completed_inv _, ?_, completed_inv _, ?_⟩
  · simpa using next_of_nextWhere (p := fun t => decide (t.result ≠ 0)) (by decide +kernel)
  · exact next_of_nextWhere (p := fun t => t.status.busy) (by decide +kernel)
  · simpa using next_of_nextWhere (p := fun t => decide (t.result ≠ 7)) (by decide +kernel)
  · simpa using next_of_nextWhere (p := fun t => decide (t.result ≠ 7)) (by decide +kernel)

theorem witness_OperandsChangeOnlyByTheHost :
    (∃ t, step (idle [.regWrite 2 4]) = .next t ∧ t.opa ≠ (idle [.regWrite 2 4]).opa) ∧
    (∃ t, step (idle [.regWrite 3 4]) = .next t ∧ t.opb ≠ (idle [.regWrite 3 4]).opb) ∧
    (∃ t, step (busy .pow 4 5 [.reset]) = .next t ∧ t.opa ≠ (busy .pow 4 5 [.reset]).opa ∧ t.opb ≠ (busy .pow 4 5 [.reset]).opb) := by
  refine ⟨?_, ?_, ?_⟩
  · simpa using next_of_nextWhere (p := fun t => decide (t.opa ≠ (idle [.regWrite 2 4]).opa)) (by decide +kernel)
  · simpa using next_of_nextWhere (p := fun t => decide (t.opb ≠ (idle [.regWrite 3 4]).opb)) (by decide +kernel)
  · simpa using next_of_nextWhere
      (p := fun t => decide (t.opa ≠ (busy .pow 4 5 [.reset]).opa ∧ t.opb ≠ (busy .pow 4 5 [.reset]).opb)) (by decide +kernel)

theorem witness_StatusWriters :
    (∃ t, step (idle [.regWrite 0 1]) = .next t ∧ t.status ≠ (idle [.regWrite 0 1]).status) ∧
    (∃ t, step (failed [.reset]) = .next t ∧ t.status ≠ (failed [.reset]).status) ∧
    (∃ t, step (busy .lookup 9 0 []) = .next t ∧ t.status ≠ (busy .lookup 9 0 []).status) := by
  refine ⟨?_, ?_, ?_⟩
  · simpa using next_of_nextWhere (p := fun t => decide (t.status ≠ (idle [.regWrite 0 1]).status)) (by decide +kernel)
  · simpa using next_of_nextWhere (p := fun t => decide (t.status ≠ (failed [.reset]).status)) (by decide +kernel)
  · simpa using next_of_nextWhere (p := fun t => decide (t.status ≠ (busy .lookup 9 0 []).status)) (by decide +kernel)

/-- One pair for each clause, at the ends of the ranges: check M fails at `2^256`, check A at `2^256 - 2`, both pass for the
largest square. -/
theorem witness_MulroundChecksThenRounds :
    2 ^ W ≤ 2 ^ 128 * 2 ^ 128 ∧ 2 ^ 128 < 2 ^ W ∧
    (2 ^ 255 - 1) * 2 < 2 ^ W ∧ 2 ^ W ≤ (2 ^ 255 - 1) * 2 + HALF ∧
    (2 ^ 128 - 1) * (2 ^ 128 - 1) < 2 ^ W ∧ (2 ^ 128 - 1) * (2 ^ 128 - 1) + HALF < 2 ^ W := by
  decide +kernel

theorem witness_DivisionBackTestIsCheckM :
    2 ^ 128 < 2 ^ W ∧ 2 ^ 128 ≠ 0 ∧ ((2 ^ 128 * 2 ^ 128) % 2 ^ W) / 2 ^ 128 ≠ 2 ^ 128 ∧
    ((2 ^ 128 * (2 ^ 128 - 1)) % 2 ^ W) / 2 ^ 128 = 2 ^ 128 - 1 := by
  decide +kernel

/-- R116's example and the largest base whose square passes. -/
theorem witness_PowCompletesWithProductChain :
    (busy .pow (BitVec.ofNat W (2 * RAY)) 10 []).eng = .run .pow (BitVec.ofNat W (2 * RAY)) 10 ∧
    Spec.power (2 * RAY) 10 = some (1024 * RAY) ∧
    Spec.power (2 ^ 128 - 1) 2 = some 115792089237316195423570985008687907852589419931799 := by
  decide +kernel

theorem witness_PowOverflowsExactlyWhenAMultiplyFails :
    (busy .pow (BitVec.ofNat W (2 ^ 128)) 2 []).eng = .run .pow (BitVec.ofNat W (2 ^ 128)) 2 ∧ Spec.power (2 ^ 128) 2 = none ∧
    Spec.power (2 ^ 128 - 1) 3 = none := by
  decide +kernel

/-- 95_test_vectors 2.3: 10 has 3 squarings and 2 multiplies; 31536000 has 24 and 10. -/
theorem witness_PowWorkCounts :
    (powRun W RAY 10).toOption.map (fun k => (k.squarings, k.multiplies)) = some (3, 2) ∧
    (powRun W RAY 31536000).toOption.map (fun k => (k.squarings, k.multiplies)) = some (24, 10) ∧
    (powRun W RAY (2 ^ 256 - 1)).toOption.map (fun k => (k.squarings, k.multiplies)) = some (255, 255) ∧
    (powRun W 0 10).toOption.map (fun k => (k.squarings, k.multiplies)) = some (0, 0) := by
  decide +kernel

theorem witness_PowIdentities :
    (busy .pow 5 0 []).eng = .run .pow 5 0 ∧ (busy .pow 5 1 []).eng = .run .pow 5 1 ∧
    (busy .pow 0 1 []).eng = .run .pow 0 1 ∧ 1 ≤ (1 : Word).toNat ∧
    (busy .pow (BitVec.ofNat W RAY) 3 []).eng = .run .pow (BitVec.ofNat W RAY) 3 ∧ (BitVec.ofNat W RAY).toNat = RAY ∧
    RAY * (2 ^ 166) + HALF < 2 ^ W := by
  decide +kernel

theorem witness_PowOfWholeUnits :
    (busy .pow (BitVec.ofNat W (2 * RAY)) 10 []).eng = .run .pow (BitVec.ofNat W (2 * RAY)) 10 ∧ 1 ≤ 2 ∧
    (BitVec.ofNat W (2 * RAY)).toNat = 2 * RAY ∧ 2 ^ (10 : Word).toNat * RAY * RAY + HALF < 2 ^ W := by
  decide +kernel

theorem witness_LookupCompletesWithDecodedRate :
    (busy .lookup 5 0 []).cfg.wf = true ∧ (busy .lookup 5 0 []).eng = .run .lookup 5 0 ∧
    (5 : Word).toNat ≤ (busy .lookup 5 0 []).cfg.max.toNat ∧ (0 : Word).toNat ≤ (busy .lookup 0 0 []).cfg.max.toNat := by
  decide +kernel

theorem witness_LookupOutOfRangeExactlyBeyondMax :
    (busy .lookup 6 0 []).cfg.wf = true ∧ (busy .lookup 6 0 []).eng = .run .lookup 6 0 ∧
    (busy .lookup 6 0 []).cfg.max.toNat < (6 : Word).toNat := by
  decide +kernel

theorem witness_LookupFaultsOnlyOutsideTheRom :
    ({ busy .lookup 8 0 [] with cfg := { t1 with max := 8 } } : State).eng = .run .lookup 8 0 ∧
    (8 : Word).toNat ≤ ({ t1 with max := 8 } : Config).max.toNat ∧ 32 * (64 / 32) < 8 * (8 : Word).toNat + 8 := by
  decide +kernel

theorem witness_ExecWhileIdleIsAcceptThenComplete : (failed []).eng = .idle := rfl

/-- Five rates: two words, three padding fields. -/
def fiveRates : List Nat := [RAY, RAY + 1, RAY + 2 ^ 64 - 1, RAY, RAY + 256]

theorem witness_PackedTableIsWellFormed :
    1 ≤ fiveRates.length ∧ fiveRates.length ≤ 2 ^ W ∧ (∀ r ∈ fiveRates, RAY ≤ r ∧ r < RAY + 2 ^ 64) ∧ 4 < fiveRates.length ∧
    fiveRates.length ≤ 5 := by
  decide +kernel

theorem witness_LookupRoundTrip :
    ({ busy .lookup 4 0 [] with cfg := pack fiveRates } : State).cfg = pack fiveRates ∧
    ({ busy .lookup 4 0 [] with cfg := pack fiveRates } : State).eng = .run .lookup 4 0 ∧ (4 : Word).toNat < fiveRates.length := by
  decide +kernel

/-- T1 with a byte of padding field 6 changed. -/
def t1Dirty : Config := { t1 with rom := t1.rom ++ [(48, 1)] }

theorem witness_PaddingNeverRead :
    (busy .lookup 5 0 []).cfg.wf = true ∧ t1Dirty.max = (busy .lookup 5 0 []).cfg.max ∧
    t1Dirty.romBytes = (busy .lookup 5 0 []).cfg.romBytes ∧
    (∀ x, x < 8 * ((busy .lookup 5 0 []).cfg.max.toNat + 1) → t1Dirty.rom.read x = (busy .lookup 5 0 []).cfg.rom.read x) ∧
    (∃ t, exec .lookup (busy .lookup 5 0 []) = .next t) := by
  refine ⟨t1_wf, rfl, rfl, ?_, next_exists (by decide +kernel)⟩
  decide +kernel

/-- T1 with every entry's delta 0. -/
def t1Zero : Config := { t1 with rom := [] }

theorem witness_OnlyLookupReadsTheTable :
    t1Zero.wf = true ∧ t1Zero.max = (busy .pow 1 2 [.engine]).cfg.max ∧ t1Zero.romBytes = (busy .pow 1 2 [.engine]).cfg.romBytes ∧
    (∀ a b, (busy .pow 1 2 [.engine]).eng = .run .lookup a b → ∃ e rest, (busy .pow 1 2 [.engine]).order = e :: rest ∧ e ≠ .engine) ∧
    (∃ t, step (busy .pow 1 2 [.engine]) = .next t) ∧
    (∃ e rest, (busy .lookup 1 2 [.regRead 5]).order = e :: rest ∧ e ≠ .engine) := by
  refine ⟨by decide +kernel, rfl, rfl, ?_, next_exists (by decide +kernel), ⟨_, _, rfl, by decide⟩⟩
  intro a b h; cases h

theorem witness_StepKeepsInvariant : (busy .pow 1 2 [.regWrite 2 3]).Inv ∧ ∃ t, step (busy .pow 1 2 [.regWrite 2 3]) = .next t :=
  ⟨busy_inv _ _ _ _, next_exists (by decide +kernel)⟩

theorem witness_NoStepStops : (busy .lookup 5 2 []).Inv ∧ (failed [.reset]).Inv := ⟨busy_inv _ _ _ _, failed_inv _⟩

theorem witness_StatusTakesOnlySixValues :
    (busy .lookup 9 2 [.engine]).Inv ∧ runSteps 0 (busy .lookup 9 2 [.engine]) = .next (busy .lookup 9 2 [.engine]) :=
  ⟨busy_inv _ _ _ _, rfl⟩

theorem witness_TableNeverChanges : ∃ t, runSteps 1 (busy .lookup 1 2 [.engine]) = .next t := next_exists (by decide +kernel)

theorem witness_WorkingRegistersAreUnobservable :
    (busy .pow 1 2 [.engine]).visible = ({ busy .pow 1 2 [.engine] with wx := 7, wz := 8, wn := 9, freeCount := 4 } : State).visible :=
  rfl

theorem witness_EarlierErrorsDoNotMatter :
    (busy .pow 1 2 []).eng = .run .pow 1 2 ∧ ({ busy .pow 1 2 [] with result := 77, wx := 3 } : State).eng = .run .pow 1 2 ∧
    (busy .pow 1 2 []).cfg = ({ busy .pow 1 2 [] with result := 77, wx := 3 } : State).cfg ∧ ∃ t, exec .pow (busy .pow 1 2 []) = .next t :=
  ⟨rfl, rfl, rfl, next_exists (by decide +kernel)⟩

theorem witness_AcceptedCommandCompletes :
    (busy .lookup 1 2 [.regRead 1, .regWrite 0 3, .engine]).Inv ∧
    (busy .lookup 1 2 [.regRead 1, .regWrite 0 3, .engine]).eng = .run .lookup 1 2 ∧
    Event.reset ∉ (busy .lookup 1 2 [.regRead 1, .regWrite 0 3, .engine]).order :=
  ⟨busy_inv _ _ _ _, rfl, by decide⟩

theorem witness_PowPseudoOperation :
    (failed (powOp 3 2 4 ++ [.reset])).cfg.wf = true ∧ (failed (powOp 3 2 4 ++ [.reset])).status.busy = false ∧
    (failed (powOp 3 2 4 ++ [.reset])).order = powOp 3 2 4 ++ [.reset] := ⟨t1_wf, rfl, rfl⟩

theorem witness_LookupPseudoOperation :
    (idle (lookupOp 5 0)).cfg.wf = true ∧ (idle (lookupOp 5 0)).status.busy = false ∧ (idle (lookupOp 5 0)).order = lookupOp 5 0 ++ [] :=
  ⟨t1_wf, rfl, by rw [List.append_nil]; rfl⟩

theorem witness_WorkingRegistersChangeOnlyByPowOrReset :
    (∃ t, step (busy .pow 1 2 []) = .next t ∧ t.freeCount ≠ (busy .pow 1 2 []).freeCount) ∧
    (∃ t, step (busy .pow 1 2 [.reset]) = .next t ∧ t.freeCount ≠ (busy .pow 1 2 [.reset]).freeCount) ∧
    (∃ t, exec .lookup (busy .lookup 5 2 []) = .next t) := by
  refine ⟨?_, ?_, next_exists (by decide +kernel)⟩
  · simpa using next_of_nextWhere (p := fun t => decide (t.freeCount ≠ (busy .pow 1 2 []).freeCount)) (by decide +kernel)
  · simpa using next_of_nextWhere (p := fun t => decide (t.freeCount ≠ (busy .pow 1 2 [.reset]).freeCount)) (by decide +kernel)

end Sys2Proof.Tests
end

