-- ==== Sys2Proof/Proofs/Scope.lean ====
section
/-! PROOFS of the family 00_scope: the constants of R6, and the one stop of a command (R13, assumption log 11). -/

namespace Sys2Proof.Machine

/-! ## The constants -/

/-- `RAY` is even, so halving it loses nothing (R6). -/
theorem two_mul_HALF : 2 * HALF = RAY := Nat.mul_div_cancel' (by decide : 2 ∣ RAY)

/-- Settles O1: `RAY` is `10^27` by definition, its evenness makes `HALF` exact, and the rest is arithmetic on the two
literals. -/
theorem rayIsTenToTwentySeven : Obligations.RayIsTenToTwentySeven :=
  ⟨rfl, by decide, two_mul_HALF, by decide, by decide, by decide⟩

/-! ## The one stop of a command -/

@[simp] theorem exec_pow (s : State) : exec .pow s = execPow s := rfl

@[simp] theorem exec_lookup (s : State) : exec .lookup s = execLookup s := rfl

/-- A running command's operand `a` is the one latched at its acceptance (R35, R73). -/
theorem operandA_run {s : State} {i : Instr} {a b : Word} (h : s.eng = .run i a b) : s.operandA = a := by
  simp [State.operandA, h]

/-- POW always answers a next state: it completes or raises. -/
theorem execPow_exists_next (s : State) : ∃ t, execPow s = .next t := by
  obtain ⟨_, _, hk⟩ | ⟨_, _, hk⟩ := execPow_cases s
  · exact ⟨_, hk⟩
  · exact ⟨_, hk⟩

/-- LOOKUP answers a next state, or its field lies outside the ROM and it faults. -/
theorem execLookup_next_or_fault (s : State) : (∃ t, execLookup s = .next t) ∨ execLookup s = .fault .romAddressAbsent := by
  obtain ⟨_, hk⟩ | ⟨_, ⟨_, _, hk⟩ | ⟨_, hk⟩⟩ := execLookup_cases s
  · exact .inl ⟨_, hk⟩
  · exact .inl ⟨_, hk⟩
  · exact .inr hk

/-- LOOKUP faults exactly where it passes the range check and R13 gives its `MemRead` no value. -/
theorem execLookup_fault_iff_memRead_none (s : State) :
    execLookup s = .fault .romAddressAbsent ↔
      s.operandA.toNat ≤ s.cfg.max.toNat ∧ memRead s.cfg (fieldBytes * s.operandA.toNat) fieldBytes = none := by
  rw [← fieldAddress]
  obtain ⟨hr, hk⟩ | ⟨hr, ⟨_, hm, hk⟩ | ⟨hm, hk⟩⟩ := execLookup_cases s
  · simp [hk, Nat.not_le.mpr hr]
  · simp [hk, hm]
  · simp [hk, hm, hr]

/-- No command is refused: each arm of `exec` has its meaning written. -/
theorem exec_ne_refused (i : Instr) (s : State) (r : Refusal) : exec i s ≠ .refused r := by
  cases i with
  | pow => obtain ⟨_, hk⟩ := execPow_exists_next s; simp [hk]
  | lookup => obtain ⟨_, hk⟩ | hk := execLookup_next_or_fault s <;> simp [hk]

/-- Settles O32: the fault of LOOKUP is its `MemRead` beyond `32 * DEPTH`, and every other answer of a command is a next
state. -/
theorem lookupFaultsOnlyOutsideTheRom : Obligations.LookupFaultsOnlyOutsideTheRom := by
  refine ⟨fun s a b h => ?_, fun s r => ?_, fun s i r => exec_ne_refused i s r⟩
  · rw [exec_lookup, execLookup_fault_iff_memRead_none, operandA_run h, memRead_eq_none_iff]
    rfl
  · obtain ⟨_, hk⟩ := execPow_exists_next s
    simp [hk]

end Sys2Proof.Machine
end

