-- ==== Sys2Proof/Proofs/State.lean ====
section
/-! PROOFS of the family 10_state: the registers and the host's transactions (R22 to R33), the invariant every step keeps and what
may change each register (R26 to R29, R35), and the working registers that nothing observes (R36). -/

namespace Sys2Proof.Machine

/-! ## Register transactions, slot by slot -/

@[simp] theorem regWrite_ctrl (v : Word) (s : State) : regWrite 0 v s = ctrlWrite v s := rfl

@[simp] theorem regRead_ctrl (s : State) : regRead 0 s = 0 := rfl
@[simp] theorem regRead_status (s : State) : regRead 1 s = s.status.word := rfl
@[simp] theorem regRead_opa (s : State) : regRead 2 s = s.opa := rfl
@[simp] theorem regRead_opb (s : State) : regRead 3 s = s.opb := rfl
@[simp] theorem regRead_result (s : State) : regRead 4 s = s.result := rfl
@[simp] theorem regRead_maxbps (s : State) : regRead 5 s = s.cfg.max := rfl
@[simp] theorem regRead_tableWords (s : State) : regRead 6 s = BitVec.ofNat W (depth s.cfg) := rfl
@[simp] theorem regRead_reserved (s : State) : regRead 7 s = 0 := rfl

/-- `DEPTH` of an admitted configuration fits a register, so TABLE_WORDS reads as all of it (R31). -/
theorem tableWords_toNat {s : State} (hc : s.cfg.wf = true) : (regRead 6 s).toNat = s.cfg.romBytes / 32 := by
  have hd : depth s.cfg = (s.cfg.max.toNat + 1 + 3) / 4 := (denseOk_iff _).mp ((wf_iff _).mp hc).2.1
  have hmax : s.cfg.max.toNat < 2 ^ 256 := s.cfg.max.isLt
  rw [regRead_tableWords, BitVec.toNat_ofNat, Nat.mod_eq_of_lt (by omega)]
  rfl

/-- The read-only slots and slot 7 ignore every write (R32). -/
theorem regWrite_readOnly {idx : BitVec 3} (h : idx ∈ [(1 : BitVec 3), 4, 5, 6, 7]) (v : Word) (s : State) :
    regWrite idx v s = s := by
  simp only [List.mem_cons, List.not_mem_nil, or_false] at h
  rcases h with rfl | rfl | rfl | rfl | rfl <;> rfl

/-- The index of a slot is the only one that names it. -/
theorem eq_idx_of_ofIdx {idx : BitVec 3} {r : Slot} (h : Slot.ofIdx idx = r) : idx = r.idx := by
  rw [← h, Slot.idx_ofIdx]

theorem decode_eq_error {v : Word} (hpow : v ≠ 0x01) (hlookup : v ≠ 0x02) : decode v = .error .illegalCommand :=
  (if_neg hpow).trans (if_neg hlookup)

section
variable {s : State} {v : Word} (hb : s.status.busy = false)
include hb

theorem regWrite_opa_idle : regWrite 2 v s = s.setOpa v := by
  show (if s.status.busy then s else s.setOpa v) = s.setOpa v
  rw [hb]; rfl

theorem regWrite_opb_idle : regWrite 3 v s = s.setOpb v := by
  show (if s.status.busy then s else s.setOpb v) = s.setOpb v
  rw [hb]; rfl

theorem ctrlWrite_accept {i : Instr} (hd : decode v = .ok i) : ctrlWrite v s = accept i s := by
  simp [ctrlWrite, hb, hd]

theorem ctrlWrite_illegal (hd : decode v = .error .illegalCommand) : ctrlWrite v s = raise .illegalCommand s := by
  simp [ctrlWrite, hb, hd]

section
variable {rest : List Event} (hc : s.cfg.wf = true) (ho : s.order = .regWrite 0 v :: rest)
include hc ho

/-- An idle CTRL write of a command word accepts the command (R23). -/
theorem step_accept {i : Instr} (hd : decode v = .ok i) : step s = .next (accept i (s.setOrder rest)) := by
  rw [step_regWrite hc ho, regWrite_ctrl, ctrlWrite_accept (s := s.setOrder rest) hb hd]

/-- An idle CTRL write of any other word raises IllegalCommand at once (R23, R154). -/
theorem step_illegal (hd : decode v = .error .illegalCommand) :
    step s = .next (raise .illegalCommand (s.setOrder rest)) := by
  rw [step_regWrite hc ho, regWrite_ctrl, ctrlWrite_illegal (s := s.setOrder rest) hb hd]

end

end

/-! ## What one step can do -/

theorem setOrder_tail_of_cons {s : State} {e : Event} {rest : List Event} (ho : s.order = e :: rest) :
    s.setOrder s.order.tail = s.setOrder rest := by
  rw [ho, List.tail_cons]

theorem setOrder_tail_of_nil {s : State} (ho : s.order = []) : s.setOrder s.order.tail = s := by
  rw [ho, List.tail_nil, ← ho]; rfl

/-- What one step makes of `s`, one constructor per effect that an event can have on the block (R39). Each is an update of
`s.setOrder s.order.tail`, which is `s` with the event taken off the order. -/
inductive StepEffect (s : State) : State → Prop where
  /-- A write that is ignored, or the engine's turn while idle. -/
  | ignored : StepEffect s (s.setOrder s.order.tail)
  | read (idx : BitVec 3) (v : Word) : StepEffect s ((s.setOrder s.order.tail).deliver idx v)
  | accepted {v : Word} {i : Instr} {rest : List Event} (ho : s.order = .regWrite 0 v :: rest)
      (hb : s.status.busy = false) (hd : decode v = .ok i) : StepEffect s (accept i (s.setOrder s.order.tail))
  | illegal {v : Word} {rest : List Event} (ho : s.order = .regWrite 0 v :: rest) (hb : s.status.busy = false)
      (hd : decode v = .error .illegalCommand) : StepEffect s (raise .illegalCommand (s.setOrder s.order.tail))
  | opaWritten {v : Word} {rest : List Event} (ho : s.order = .regWrite 2 v :: rest) (hb : s.status.busy = false) :
      StepEffect s ((s.setOrder s.order.tail).setOpa v)
  | opbWritten {v : Word} {rest : List Event} (ho : s.order = .regWrite 3 v :: rest) (hb : s.status.busy = false) :
      StepEffect s ((s.setOrder s.order.tail).setOpb v)
  | reset {rest : List Event} (ho : s.order = .reset :: rest) : StepEffect s (resetEvent (s.setOrder s.order.tail))
  | completed {i : Instr} {a b : Word} {t : State} (he : s.eng = .run i a b)
      (ho : s.order = [] ∨ ∃ rest, s.order = .engine :: rest) (hx : exec i (s.setOrder s.order.tail) = .next t) :
      StepEffect s t

/-- The effects of a register write that is next. -/
theorem regWrite_effect {s : State} {idx : BitVec 3} {v : Word} {rest : List Event}
    (ho : s.order = .regWrite idx v :: rest) : StepEffect s (regWrite idx v (s.setOrder s.order.tail)) := by
  obtain hk | ⟨hi, hk⟩ | ⟨hi, hb, hk⟩ | ⟨hi, hb, hk⟩ := regWrite_cases idx v (s.setOrder s.order.tail) <;> rw [hk]
  · exact .ignored
  · cases eq_idx_of_ofIdx hi
    obtain ⟨_, hw⟩ | ⟨hb, i, hd, hw⟩ | ⟨hb, hd, hw⟩ := ctrlWrite_cases v (s.setOrder s.order.tail) <;> rw [hw]
    · exact .ignored
    · exact .accepted ho hb hd
    · exact .illegal ho hb hd
  · cases eq_idx_of_ofIdx hi
    exact .opaWritten ho hb
  · cases eq_idx_of_ofIdx hi
    exact .opbWritten ho hb

/-- The effects of the engine's turn, given by the order or by its end. -/
theorem engineTurn_effect {s t : State} (ho : s.order = [] ∨ ∃ rest, s.order = .engine :: rest)
    (h : engineTurn (s.setOrder s.order.tail) = .next t) : StepEffect s t := by
  obtain ⟨_, rfl⟩ | ⟨i, a, b, he, hx⟩ := engineTurn_cases h
  · exact .ignored
  · exact .completed he ho hx

/-- Every step has one of the effects. -/
theorem step_effect {s t : State} (h : step s = .next t) : StepEffect s t := by
  obtain ⟨_, ⟨idx, v, rest, ho, rfl⟩ | ⟨idx, rest, ho, rfl⟩ | ⟨rest, ho, rfl⟩ | ⟨rest, ho, he⟩ | ⟨ho, he⟩⟩ :=
    step_cases h
  · rw [← setOrder_tail_of_cons ho]; exact regWrite_effect ho
  · rw [← setOrder_tail_of_cons ho]; exact .read idx _
  · rw [← setOrder_tail_of_cons ho]; exact .reset ho
  · rw [← setOrder_tail_of_cons ho] at he; exact engineTurn_effect (.inr ⟨rest, ho⟩) he
  · rw [← setOrder_tail_of_nil ho] at he; exact engineTurn_effect (.inl ho) he

/-! ## What a completion leaves -/

/-- The state a command ends in (R14): the engine idle, DONE set, and RESULT 0 where an error is reported. -/
structure State.Ended (t : State) : Prop where
  eng : t.eng = .idle
  status : t.status = .finished 0 ∨ ∃ e : ErrKind, t.status = .finished e.code ∧ t.result = 0

theorem complete_ended (v : Word) (s : State) : (complete v s).Ended := ⟨rfl, .inl rfl⟩

theorem raise_ended (e : ErrKind) (s : State) : (raise e s).Ended := ⟨rfl, .inr ⟨e, rfl, rfl⟩⟩

theorem exec_ended {i : Instr} {s t : State} (h : exec i s = .next t) : t.Ended := by
  obtain ⟨v, rfl | rfl⟩ | ⟨e, rfl | rfl⟩ := exec_next h
  · exact complete_ended _ _
  · exact complete_ended _ _
  · exact raise_ended _ _
  · exact raise_ended _ _

/-- No command writes an operand register or a constant (R14). -/
theorem exec_frame {i : Instr} {s t : State} (h : exec i s = .next t) : t.opa = s.opa ∧ t.opb = s.opb ∧ t.cfg = s.cfg := by
  obtain ⟨v, rfl | rfl⟩ | ⟨e, rfl | rfl⟩ := exec_next h <;> exact ⟨rfl, rfl, rfl⟩

namespace State.Ended
variable {t : State} (h : t.Ended)
include h

theorem busy : t.status.busy = false := by
  obtain ⟨_, hst | ⟨e, hst, _⟩⟩ := h <;> rw [hst] <;> rfl

theorem done : t.status.done = true := by
  obtain ⟨_, hst | ⟨e, hst, _⟩⟩ := h <;> rw [hst] <;> rfl

theorem result_of_err (he : t.status.err ≠ 0) : t.result = 0 := by
  obtain ⟨_, hst | ⟨_, _, hr⟩⟩ := h
  · exact absurd (by rw [hst]; rfl) he
  · exact hr

theorem inv (hc : t.cfg.wf = true) : t.Inv where
  config := hc
  status := .inr (.inr (h.status.imp id fun ⟨e, he, _⟩ => ⟨e, he⟩))
  busy := by simp [h.busy, h.eng]
  latched := by simp [h.eng]
  error := h.result_of_err
  fresh := by simp [h.done]

end State.Ended

/-! ## The invariant -/

/-- A state with the register values of R38 satisfies the invariant. -/
theorem inv_of_reset_values {t : State} (hc : t.cfg.wf = true) (hst : t.status = .atReset) (he : t.eng = .idle)
    (hr : t.result = 0) : t.Inv where
  config := hc
  status := .inl hst
  busy := by simp [hst, he, Status.atReset]
  latched := by simp [he]
  error := fun _ => hr
  fresh := fun _ _ => hr

theorem Status.legal.eq_running {st : Status} (h : st.legal) (hb : st.busy = true) : st = .running := by
  obtain rfl | rfl | rfl | ⟨e, rfl⟩ := h
  · cases hb
  · rfl
  · cases hb
  · cases hb

namespace State.Inv
variable {s : State} (h : s.Inv)
include h

theorem eng_idle (hb : s.status.busy = false) : s.eng = .idle :=
  not_not.mp fun hne => Bool.false_ne_true (hb ▸ h.busy.mpr hne)

/-- The invariant does not speak of the events still to come. -/
theorem setOrder (rest : List Event) : (s.setOrder rest).Inv :=
  ⟨h.config, h.status, h.busy, h.latched, h.error, h.fresh⟩

/-- Nor does it speak of what the host received. -/
theorem deliver (idx : BitVec 3) (v : Word) : (s.deliver idx v).Inv :=
  ⟨h.config, h.status, h.busy, h.latched, h.error, h.fresh⟩

/-- Acceptance latches the very operands that stand in OPA and OPB (R23). -/
theorem accept (i : Instr) : (accept i s).Inv where
  config := h.config
  status := .inr (.inl rfl)
  busy := by simp [Status.running]
  latched := by simp +contextual
  error := by simp [Status.running]
  fresh := by simp [Status.running]

theorem setOpa (hb : s.status.busy = false) (v : Word) : (s.setOpa v).Inv :=
  ⟨h.config, h.status, h.busy, by simp [h.eng_idle hb], h.error, h.fresh⟩

theorem setOpb (hb : s.status.busy = false) (v : Word) : (s.setOpb v).Inv :=
  ⟨h.config, h.status, h.busy, by simp [h.eng_idle hb], h.error, h.fresh⟩

theorem resetEvent : (resetEvent s).Inv := inv_of_reset_values h.config rfl rfl rfl

theorem exec {i : Instr} {t : State} (hx : exec i s = .next t) : t.Inv := by
  obtain ⟨_, _, hcfg⟩ := exec_frame hx
  exact (exec_ended hx).inv (hcfg ▸ h.config)

end State.Inv

/-- Settles O38: each effect of a step keeps the invariant. -/
theorem stepKeepsInvariant : Obligations.StepKeepsInvariant := by
  intro s t h hs
  have hu := h.setOrder s.order.tail
  cases step_effect hs with
  | ignored => exact hu
  | read idx v => exact hu.deliver idx v
  | accepted => exact hu.accept _
  | illegal => exact (raise_ended _ _).inv h.config
  | opaWritten _ hb => exact hu.setOpa hb _
  | opbWritten _ hb => exact hu.setOpb hb _
  | reset => exact hu.resetEvent
  | completed _ _ hx => exact hu.exec hx

/-- Settles O10: the start state of every admitted configuration holds the values of R38, and the smallest configuration is
admitted. -/
theorem resetSatisfiesInvariant : Obligations.ResetSatisfiesInvariant :=
  have hreset : ∀ c : Config, c.wf = true → (State.resetWith c).Inv := fun _ hc => inv_of_reset_values hc rfl rfl rfl
  ⟨hreset _ (by decide), hreset⟩

/-! ## What may change RESULT, the operands and STATUS -/

/-- The ways RESULT changes (R29): a Complete event, an IllegalCommand, a Reset. -/
theorem result_change {s t : State} (hs : step s = .next t) (hne : t.result ≠ s.result) :
    (∃ i a b, s.eng = .run i a b ∧ (s.order = [] ∨ ∃ rest, s.order = .engine :: rest) ∧
      exec i (s.setOrder s.order.tail) = .next t ∧ t.Ended) ∨
    (∃ v rest, s.order = .regWrite 0 v :: rest ∧ s.status.busy = false ∧ decode v = .error .illegalCommand ∧
      t = raise .illegalCommand (s.setOrder s.order.tail)) ∨
    (∃ rest, s.order = .reset :: rest ∧ t = resetEvent (s.setOrder s.order.tail)) := by
  cases step_effect hs with
  | ignored | read | accepted | opaWritten | opbWritten => exact absurd rfl hne
  | illegal ho hb hd => exact .inr (.inl ⟨_, _, ho, hb, hd, rfl⟩)
  | reset ho => exact .inr (.inr ⟨_, ho, rfl⟩)
  | completed he ho hx => exact .inl ⟨_, _, _, he, ho, hx, exec_ended hx⟩

/-- Each of those ways leaves the engine idle. -/
theorem eng_idle_of_result_change {s t : State} (hs : step s = .next t) (hne : t.result ≠ s.result) : t.eng = .idle := by
  obtain ⟨_, _, _, _, _, _, hend⟩ | ⟨_, _, _, _, _, rfl⟩ | ⟨_, _, rfl⟩ := result_change hs hne
  · exact hend.eng
  · rfl
  · rfl

/-- Settles O19: RESULT changes in the three ways of `result_change`, and a block that stays busy has an engine that is not
idle. -/
theorem resultChangesOnlyAtCompletion : Obligations.ResultChangesOnlyAtCompletion := by
  intro s t h hs
  refine ⟨fun hb => ?_, fun hb => ?_, fun hne => ?_⟩
  · rw [regRead_status, h.status.eq_running hb]; exact word_running
  · have hrun : t.eng ≠ .idle := (stepKeepsInvariant s t h hs).busy.mp hb
    exact not_not.mp fun hne => hrun (eng_idle_of_result_change hs hne)
  · obtain ⟨i, a, b, he, ho, hx, hend⟩ | ⟨v, rest, ho, hb, hd, rfl⟩ | ⟨rest, ho, rfl⟩ := result_change hs hne
    · exact .inl ⟨i, a, b, he, ho, hx, hend.eng, hend.busy, hend.done, hend.result_of_err⟩
    · exact .inr (.inl ⟨v, rest, ho, hb, by simp [hd], rfl, word_error .illegalCommand, rfl⟩)
    · exact .inr (.inr ⟨rest, ho, rfl, word_atReset, rfl⟩)

/-- Settles O20: of the effects of a step only the write to the register's own slot and the Reset touch an operand. -/
theorem operandsChangeOnlyByTheHost : Obligations.OperandsChangeOnlyByTheHost := by
  intro s t hs
  cases step_effect hs with
  | ignored | read | accepted | illegal => exact ⟨absurd rfl, absurd rfl⟩
  | opaWritten ho hb => exact ⟨fun _ => .inl ⟨_, _, ho, hb, rfl⟩, absurd rfl⟩
  | opbWritten ho hb => exact ⟨absurd rfl, fun _ => .inl ⟨_, _, ho, hb, rfl⟩⟩
  | reset ho => exact ⟨fun _ => .inr ⟨_, ho, rfl⟩, fun _ => .inr ⟨_, ho, rfl⟩⟩
  | completed _ _ hx =>
    obtain ⟨hopa, hopb, _⟩ := exec_frame hx
    exact ⟨absurd hopa, absurd hopb⟩

/-- Settles O21: acceptance, IllegalCommand, Reset and Complete are the effects that write STATUS. -/
theorem statusWriters : Obligations.StatusWriters := by
  intro s t hs hne
  cases step_effect hs with
  | ignored | read | opaWritten | opbWritten => exact absurd rfl hne
  | accepted ho hb => exact .inl ⟨_, _, ho, hb⟩
  | illegal ho hb => exact .inl ⟨_, _, ho, hb⟩
  | reset ho => exact .inr (.inl ⟨_, ho, word_atReset⟩)
  | completed he ho hx => exact .inr (.inr ⟨_, _, _, he, ho, (exec_ended hx).done, (exec_ended hx).busy⟩)

/-! ## The values of STATUS -/

/-- The six values of R26, and what the fields of a legal STATUS say of each other. -/
theorem Status.legal.values {st : Status} (h : st.legal) :
    st.word ∈ [(0x00 : Word), 0x01, 0x02, 0x12, 0x22, 0x32] ∧ ¬ (st.busy = true ∧ st.done = true) ∧
    (st.err ≠ 0 → st.done = true) ∧ (st.word = 0x01 ↔ st.busy = true) := by
  obtain rfl | rfl | rfl | ⟨e, rfl⟩ := h
  · decide
  · decide
  · decide
  · cases e <;> decide

/-- Settles O40: the invariant holds along every run, and with it STATUS has a legal form, BUSY set exactly while a command
runs. -/
theorem statusTakesOnlySixValues : Obligations.StatusTakesOnlySixValues := by
  intro s t k h hk
  have ht : t.Inv := runSteps_keeps stepKeepsInvariant h hk
  obtain ⟨hmem, hexcl, herr, hword⟩ := ht.status.values
  exact ⟨hmem, hexcl, herr, hword.trans ht.busy⟩

/-! ## The working registers -/

/-- The hidden registers and the free-value counter are as they were. -/
def SameWork (s t : State) : Prop :=
  t.wx = s.wx ∧ t.wz = s.wz ∧ t.wn = s.wn ∧ t.freeCount = s.freeCount

/-- They hold the next three free values (assumption log 3). -/
def FreshWork (s t : State) : Prop :=
  t.freeCount = s.freeCount + 3 ∧ t.wx = Config.freeWord s.freeCount ∧ t.wz = Config.freeWord (s.freeCount + 1) ∧
    t.wn = Config.freeWord (s.freeCount + 2)

theorem execLookup_sameWork {s t : State} (h : execLookup s = .next t) : SameWork s t := by
  obtain ⟨_, rfl⟩ | ⟨_, rfl⟩ := execLookup_next h <;> exact ⟨rfl, rfl, rfl, rfl⟩

theorem execPow_freshWork {s t : State} (h : execPow s = .next t) : FreshWork s t := by
  obtain ⟨_, rfl⟩ | ⟨_, rfl⟩ := execPow_next h <;> exact ⟨rfl, rfl, rfl, rfl⟩

/-- A step keeps the hidden registers, or it is POW's Complete event or a Reset and draws three free values. -/
theorem step_work {s t : State} (hs : step s = .next t) :
    SameWork s t ∨
    ((∃ a b, s.eng = .run .pow a b ∧ (s.order = [] ∨ ∃ rest, s.order = .engine :: rest)) ∨
      ∃ rest, s.order = .reset :: rest) ∧ FreshWork s t := by
  cases step_effect hs with
  | ignored | read | accepted | illegal | opaWritten | opbWritten => exact .inl ⟨rfl, rfl, rfl, rfl⟩
  | reset ho => exact .inr ⟨.inr ⟨_, ho⟩, rfl, rfl, rfl, rfl⟩
  | @completed i _ _ _ he ho hx =>
    cases i with
    | pow => have hw := execPow_freshWork hx; exact .inr ⟨.inl ⟨_, _, he, ho⟩, hw⟩
    | lookup => have hw := execLookup_sameWork hx; exact .inl hw

/-- Settles O47: a step that keeps the hidden registers changes none of them, and every other step is one of the two that
`step_work` names. -/
theorem workingRegistersChangeOnlyByPowOrReset : Obligations.WorkingRegistersChangeOnlyByPowOrReset := by
  refine ⟨fun s t hs hne => ?_, fun s t h => execLookup_sameWork h⟩
  obtain ⟨hx, hz, hn, hf⟩ | hfresh := step_work hs
  · exact absurd hne (by simp [hx, hz, hn, hf])
  · exact hfresh

/-! ## The visible part of a step is a function of the visible part of the state -/

theorem visible_setOrder (rest : List Event) (s : State) :
    (s.setOrder rest).visible = { s.visible with order := rest } := rfl

theorem visible_deliver (idx : BitVec 3) (v : Word) (s : State) :
    (s.deliver idx v).visible = { s.visible with received := (idx, v) :: s.visible.received } := rfl

theorem visible_setOpa (v : Word) (s : State) : (s.setOpa v).visible = { s.visible with opa := v } := rfl

theorem visible_setOpb (v : Word) (s : State) : (s.setOpb v).visible = { s.visible with opb := v } := rfl

theorem visible_accept (i : Instr) (s : State) :
    (accept i s).visible = { s.visible with eng := .run i s.visible.opa s.visible.opb, status := .running } := rfl

theorem visible_complete (v : Word) (s : State) :
    (complete v s).visible = { s.visible with result := v, status := .finished 0, eng := .idle } := rfl

theorem visible_raise (e : ErrKind) (s : State) :
    (raise e s).visible = { s.visible with result := 0, status := .finished e.code, eng := .idle } := rfl

theorem visible_forgetWork (s : State) : (forgetWork s).visible = s.visible := rfl

theorem visible_resetEvent (s : State) :
    (resetEvent s).visible = { s.visible with opa := 0, opb := 0, result := 0, status := .atReset, eng := .idle } := rfl

section
variable {s s' : State} (h : s.visible = s'.visible)
include h

theorem status_eq_of_visible : s.status = s'.status := congrArg Visible.status h

theorem eng_eq_of_visible : s.eng = s'.eng := congrArg Visible.eng h

theorem cfg_eq_of_visible : s.cfg = s'.cfg := congrArg Visible.cfg h

theorem order_eq_of_visible : s.order = s'.order := congrArg Visible.order h

theorem setOrder_visible_congr (rest : List Event) : (s.setOrder rest).visible = (s'.setOrder rest).visible := by
  rw [visible_setOrder, h, ← visible_setOrder]

theorem operandA_eq_of_visible : s.operandA = s'.operandA := by
  have hopa : s.opa = s'.opa := congrArg Visible.opa h
  rw [State.operandA, State.operandA, eng_eq_of_visible h, hopa]

theorem operandB_eq_of_visible : s.operandB = s'.operandB := by
  have hopb : s.opb = s'.opb := congrArg Visible.opb h
  rw [State.operandB, State.operandB, eng_eq_of_visible h, hopb]

theorem regRead_eq_of_visible (idx : BitVec 3) : regRead idx s = regRead idx s' := by
  have hopa : s.opa = s'.opa := congrArg Visible.opa h
  have hopb : s.opb = s'.opb := congrArg Visible.opb h
  have hresult : s.result = s'.result := congrArg Visible.result h
  rw [regRead, regRead, status_eq_of_visible h, cfg_eq_of_visible h, hopa, hopb, hresult]

theorem ctrlWrite_visible_congr (v : Word) : (ctrlWrite v s).visible = (ctrlWrite v s').visible := by
  rw [ctrlWrite, ctrlWrite, status_eq_of_visible h]
  split
  · exact h
  · split
    · rw [visible_accept, h, ← visible_accept]
    · rw [visible_raise, h, ← visible_raise]

theorem regWrite_visible_congr (idx : BitVec 3) (v : Word) : (regWrite idx v s).visible = (regWrite idx v s').visible := by
  rw [regWrite, regWrite, status_eq_of_visible h]
  cases Slot.ofIdx idx with
  | ctrl => exact ctrlWrite_visible_congr h v
  | opa =>
    dsimp only
    split
    · exact h
    · rw [visible_setOpa, h, ← visible_setOpa]
  | opb =>
    dsimp only
    split
    · exact h
    · rw [visible_setOpb, h, ← visible_setOpb]
  | status | result | maxbps | tableWords | reserved => exact h

theorem execPow_visible_congr : visibleOutcome (execPow s) = visibleOutcome (execPow s') := by
  rw [execPow, execPow, operandA_eq_of_visible h, operandB_eq_of_visible h]
  split
  · simp only [visibleOutcome, visible_complete, visible_forgetWork, h]
  · simp only [visibleOutcome, visible_raise, visible_forgetWork, h]

theorem execLookup_visible_congr : visibleOutcome (execLookup s) = visibleOutcome (execLookup s') := by
  rw [execLookup, execLookup, operandA_eq_of_visible h, cfg_eq_of_visible h]
  split
  · simp only [visibleOutcome, visible_raise, h]
  · split
    · simp only [visibleOutcome, visible_complete, h]
    · rfl

theorem engineTurn_visible_congr : visibleOutcome (engineTurn s) = visibleOutcome (engineTurn s') := by
  rw [engineTurn, engineTurn, eng_eq_of_visible h]
  cases s'.eng with
  | idle => exact congrArg Host.Outcome.next h
  | run i a b =>
    cases i with
    | pow => exact execPow_visible_congr h
    | lookup => exact execLookup_visible_congr h

theorem applyEvent_visible_congr (e : Event) : visibleOutcome (applyEvent e s) = visibleOutcome (applyEvent e s') := by
  cases e with
  | regWrite idx v => exact congrArg Host.Outcome.next (regWrite_visible_congr h idx v)
  | regRead idx =>
    simp only [applyEvent, visibleOutcome, visible_deliver, regRead_eq_of_visible h, h]
  | reset => simp only [applyEvent, visibleOutcome, visible_resetEvent, h]
  | engine => exact engineTurn_visible_congr h

/-- Two states that look alike step to outcomes that look alike. -/
theorem step_visible_congr : visibleOutcome (step s) = visibleOutcome (step s') := by
  rw [step, step, cfg_eq_of_visible h]
  split
  · rw [nextEvent, nextEvent, order_eq_of_visible h]
    split
    · exact applyEvent_visible_congr (setOrder_visible_congr h _) _
    · exact engineTurn_visible_congr h
  · rfl

end

/-- Outcomes that look alike are next states that look alike, or the same stop. -/
theorem visibleOutcome_eq_cases {o o' : Host.Outcome State Fault Refusal} (h : visibleOutcome o = visibleOutcome o') :
    (∃ t t', o = .next t ∧ o' = .next t' ∧ t.visible = t'.visible) ∨ (∃ r, o = .fault r ∧ o' = .fault r) ∨
    (∃ r, o = .refused r ∧ o' = .refused r) := by
  cases o with
  | next t =>
    cases o' with
    | next t' => exact .inl ⟨t, t', rfl, rfl, Host.Outcome.next.inj h⟩
    | fault | refused => cases h
  | fault r =>
    cases o' with
    | next | refused => cases h
    | fault r' => cases h; exact .inr (.inl ⟨r, rfl, rfl⟩)
  | refused r =>
    cases o' with
    | next | fault => cases h
    | refused r' => cases h; exact .inr (.inr ⟨r, rfl, rfl⟩)

theorem coreRun_fault (M : Host.Core) (k : Nat) {s : M.State} {r : M.Fault} (h : M.step s = .fault r) :
    M.run (k + 1) s = .fault r := by
  simp [Host.Core.run, h]

theorem coreRun_refused (M : Host.Core) (k : Nat) {s : M.State} {r : M.Refusal} (h : M.step s = .refused r) :
    M.run (k + 1) s = .refused r := by
  simp [Host.Core.run, h]

/-- A run ends at its first fault. -/
theorem runSteps_succ_of_fault {s : State} {r : Fault} (k : Nat) (h : step s = .fault r) :
    runSteps (k + 1) s = .fault r :=
  coreRun_fault Sys2Proof.core k h

/-- A run ends at its first refusal. -/
theorem runSteps_succ_of_refused {s : State} {r : Refusal} (k : Nat) (h : step s = .refused r) :
    runSteps (k + 1) s = .refused r :=
  coreRun_refused Sys2Proof.core k h

/-- Settles O42: by induction on the number of steps, each of which keeps two states that look alike so (`step_visible_congr`). -/
theorem workingRegistersAreUnobservable : Obligations.WorkingRegistersAreUnobservable := by
  intro s s' k h
  induction k generalizing s s' with
  | zero => exact congrArg Host.Outcome.next h
  | succ k ih =>
    obtain ⟨t, t', hs, hs', ht⟩ | ⟨r, hs, hs'⟩ | ⟨r, hs, hs'⟩ := visibleOutcome_eq_cases (step_visible_congr h)
    · rw [runSteps_succ_of_next k hs, runSteps_succ_of_next k hs']; exact ih t t' ht
    · rw [runSteps_succ_of_fault k hs, runSteps_succ_of_fault k hs']
    · rw [runSteps_succ_of_refused k hs, runSteps_succ_of_refused k hs']

/-! ## Reset, and one step for each host transaction -/

/-- Settles O8: both states hold the values of R38, and a Reset leaves `cfg` as it is. -/
theorem resetValues : Obligations.ResetValues := by
  refine ⟨fun t ht => ?_, fun s => ⟨rfl, rfl, fun _ => rfl⟩⟩
  obtain ⟨c, rfl⟩ | ⟨s, rfl⟩ := ht
  · exact ⟨rfl, rfl, rfl, rfl, rfl, rfl, rfl, regRead_ctrl _, word_atReset, regRead_reserved _⟩
  · exact ⟨rfl, rfl, rfl, rfl, rfl, rfl, rfl, regRead_ctrl _, word_atReset, regRead_reserved _⟩

/-- Settles O11: the engine's turn is `exec` of the running command and nothing while idle, and a command word written to an
idle CTRL is accepted. -/
theorem stepRunsTheCommand : Obligations.StepRunsTheCommand := by
  refine fun s hc => ⟨fun i a b rest he ho => ?_, fun i a b he ho => ?_, fun v i rest hb ho hd => ?_,
    fun rest he ho => ?_, fun he ho => ?_⟩
  · rw [step_engine hc ho, engineTurn_run (s := s.setOrder rest) he]
  · rw [step_nil hc ho, engineTurn_run he]
  · exact step_accept hb hc ho hd
  · rw [step_engine hc ho, engineTurn_idle (s := s.setOrder rest) he]
  · rw [step_nil hc ho, engineTurn_idle he]

/-- The decoder on a table word is the block's own decoder of the 256-bit word. -/
theorem decodeTableWord_of_lt {w : Nat} (hw : w < 2 ^ W) (nbits : Nat) :
    decodeTableWord nbits w = (decode (BitVec.ofNat W w)).toOption := if_pos hw

/-- A command word stands accepted, with the engine's turn next. -/
theorem loadCommand_of_ok {v : Word} {i : Instr} (hd : decode v = .ok i) (s : State) :
    loadCommand v s = (accept i s).setOrder (.engine :: s.order) := by
  rw [loadCommand, hd]

/-- Any other word is the next CTRL write to an idle block. -/
theorem loadCommand_of_error {v : Word} (hd : decode v = .error .illegalCommand) (s : State) :
    loadCommand v s =
      { s with status := { s.status with busy := false }, eng := .idle, order := .regWrite 0 v :: s.order } := by
  rw [loadCommand, hd]

/-- Settles O12: what `loadCommand` makes of the word, by whether it decodes, and the step after it. -/
theorem fetchedWordRunsNext : Obligations.FetchedWordRunsNext := by
  intro s nbits w hc hw
  rw [decodeTableWord_of_lt hw, State.withFetchWord]
  cases hd : decode (BitVec.ofNat W w) with
  | ok i =>
    rw [loadCommand_of_ok hd]
    refine ⟨fun j hj => ?_, fun hn => by cases hn⟩
    cases hj
    have hturn := step_engine (s := (accept i s).setOrder (.engine :: s.order)) hc rfl
    exact ⟨hturn.trans (engineTurn_run rfl), rfl⟩
  | error e =>
    cases e
    rw [loadCommand_of_error hd]
    refine ⟨fun i hi => (by cases hi), fun _ => ⟨_, step_illegal rfl hc rfl hd, word_error .illegalCommand, ?_⟩⟩
    exact ⟨rfl, rfl, rfl, rfl, rfl, rfl⟩

/-- Settles O13: a read delivers the slot's value and leaves the rest of the state as it is. -/
theorem readsReturnRegisters : Obligations.ReadsReturnRegisters := fun s _ hc =>
  ⟨fun _ ho => step_regRead hc ho, regRead_ctrl s, regRead_opa s, regRead_opb s, regRead_result s, regRead_maxbps s,
    tableWords_toNat hc, regRead_reserved s, word_toNat s.status⟩

/-- Settles O14: the write is performed and ignored. -/
theorem readOnlyWritesIgnored : Obligations.ReadOnlyWritesIgnored := by
  intro s idx v rest hc hidx ho
  refine ⟨?_, regRead_reserved s, regRead_maxbps _, tableWords_toNat hc⟩
  rw [step_regWrite hc ho, regWrite_readOnly hidx]

/-- Settles O15: an idle write to an operand slot is `setOpa` or `setOpb`. -/
theorem idleOperandWrites : Obligations.IdleOperandWrites := by
  refine fun s v rest hc hb => ⟨fun ho => ⟨?_, rfl⟩, fun ho => ⟨?_, rfl⟩⟩
  · rw [step_regWrite hc ho, regWrite_opa_idle (s := s.setOrder rest) hb]; rfl
  · rw [step_regWrite hc ho, regWrite_opb_idle (s := s.setOrder rest) hb]; rfl

/-- Settles O16: a busy block drops the write, and an idle one accepts the two command words and raises IllegalCommand for every
other. -/
theorem controlWriteDecidesTheCommand : Obligations.ControlWriteDecidesTheCommand := by
  refine fun s v rest hc ho => ⟨regRead_ctrl s, fun hb => ?_, fun hb hv => ?_, fun hb hv => ?_, fun hb hpow hlookup => ?_,
    fun t idx v' hb => ?_⟩
  · rw [step_regWrite hc ho, regWrite_busy (s := s.setOrder rest) hb]
  · subst hv; exact step_accept hb hc ho rfl
  · subst hv; exact step_accept hb hc ho rfl
  · exact step_illegal hb hc ho (decode_eq_error hpow hlookup)
  · rw [regWrite_busy hb]

/-! ## A command in an idle state -/

theorem complete_accept (v : Word) (i : Instr) (s : State) : complete v (accept i s) = complete v s := rfl

theorem raise_accept (e : ErrKind) (i : Instr) (s : State) : raise e (accept i s) = raise e s := rfl

theorem forgetWork_accept (i : Instr) (s : State) : forgetWork (accept i s) = accept i (forgetWork s) := rfl

/-- Settles O33: acceptance latches the operands that `exec` of an idle state uses, and the completion writes over what else
acceptance changed. -/
theorem execWhileIdleIsAcceptThenComplete : Obligations.ExecWhileIdleIsAcceptThenComplete := by
  intro s i h
  obtain ⟨ha, hb⟩ := exec_accept_visible i s h
  cases i with
  | pow => simp only [exec_pow, execPow, ha, hb, forgetWork_accept, complete_accept, raise_accept]
  | lookup => simp only [exec_lookup, execLookup, ha, accept_cfg, complete_accept, raise_accept]

end Sys2Proof.Machine
end

/-! PROOFS of the family 20_memory: what R55's check says and what a packed table meets of it (R54, R55), the fields of a word
(R53), and the table that no event changes and only LOOKUP's Complete event reads (R50, R59). -/

namespace Sys2Proof.Machine

/-! ## Fields and words -/

/-- R52: a field is the sum of its 8 bytes, the first the most significant. -/
theorem field_eq_bytes8 (c : Config) (k : Nat) : field c k = Spec.bytes8 c.rom (8 * k) :=
  bigEndian_eq_sum c.rom (8 * k) 8

/-- R53: a word is the sum of its 32 bytes, the first the most significant. -/
theorem wordValue_eq_bytes32 (c : Config) (w : Nat) : wordValue c w = Spec.bytes32 c.rom (32 * w) :=
  bigEndian_eq_sum c.rom (32 * w) 32

/-- Dropping the last `r` bytes and keeping `n` of the rest leaves the `n` bytes that follow the first `k`. -/
theorem bigEndian_div_mod (m : Memory) (a k n r : Nat) :
    m.bigEndian a (k + n + r) / 256 ^ r % 256 ^ n = m.bigEndian (a + k) n := by
  have hdrop : m.bigEndian a (k + n + r) / 256 ^ r = m.bigEndian a (k + n) := by
    rw [bigEndian_add, Nat.mul_comm, Nat.mul_add_div (Nat.pow_pos (by decide)),
      Nat.div_eq_of_lt (bigEndian_lt m _ r), Nat.add_zero]
  rw [hdrop, bigEndian_add, Nat.mul_add_mod_self_right, Nat.mod_eq_of_lt (bigEndian_lt m _ n)]

/-- The field in slot `slot` of word `w` is `word(w)[255 - 64*slot : 192 - 64*slot]` (R53). -/
theorem field_eq_shifted_wordValue (c : Config) (w : Nat) {slot : Nat} (h : slot < 4) :
    field c (4 * w + slot) = (wordValue c w >>> (64 * (3 - slot))) % 2 ^ 64 := by
  have hmid := bigEndian_div_mod c.rom (32 * w) (8 * slot) 8 (8 * (3 - slot))
  have hlen : 8 * slot + 8 + 8 * (3 - slot) = 32 := by omega
  have haddr : 32 * w + 8 * slot = 8 * (4 * w + slot) := by omega
  have hpow : 256 ^ (8 * (3 - slot)) = 2 ^ (64 * (3 - slot)) := by
    rw [show 256 = 2 ^ 8 from rfl, ← Nat.pow_mul, ← Nat.mul_assoc]
  rw [hlen, haddr, hpow] at hmid
  rw [Nat.shiftRight_eq_div_pow]
  exact hmid.symm

/-- Settles O3: the two values are the sums of their bytes, and the field is cut out of the word's bytes. -/
theorem fieldIsShiftedMaskedWord : Obligations.FieldIsShiftedMaskedWord := fun c w =>
  ⟨wordValue_eq_bytes32 c w, fun _ h => ⟨field_eq_bytes8 c _, field_eq_shifted_wordValue c w h⟩⟩

/-! ## The check of a configuration -/

/-- R55(b) as two bounds: the fields `0 .. 4*DEPTH - 1` hold every entry, and the last word is needed. -/
theorem denseOk_iff_bounds (c : Config) :
    denseOk c = true ↔ c.max.toNat + 1 ≤ 4 * (c.romBytes / 32) ∧ 4 * (c.romBytes / 32) < c.max.toNat + 1 + 4 := by
  simp only [denseOk_iff, depth, wordBytes]
  omega

/-- R55(c) over the ROM's bytes. -/
theorem paddingOk_iff_bytes8 (c : Config) :
    paddingOk c = true ↔
      ∀ k, c.max.toNat + 1 ≤ k → k < 4 * (c.romBytes / 32) → Spec.bytes8 c.rom (8 * k) = 0 := by
  simp only [paddingOk_iff, field_eq_bytes8, depth]

/-- "A model refuses a configuration that violates this rule" (R55, assumption log 10). -/
theorem step_refused {s : State} (h : s.cfg.wf = false) : step s = .refused .illFormedConfig := by
  simp [step, h]

/-- Settles O2: each part of the check says its clause of R55; the dense clause gives the bound. -/
theorem configurationCheckSaysR55 : Obligations.ConfigurationCheckSaysR55 := by
  refine ⟨fun c => ?_, fun c hc => ⟨?_, fun s hs => ?_⟩, fun s => step_refused⟩
  · rw [wf_iff, sizeOk_iff, denseOk_iff_bounds, paddingOk_iff_bytes8, romOk_iff]
  · obtain ⟨_, hdense, _, _⟩ := (wf_iff c).mp hc
    obtain ⟨hbound, _⟩ := (denseOk_iff_bounds c).mp hdense
    simp only [depth, wordBytes]
    omega
  · subst hs
    exact tableWords_toNat hc

/-! ## The packed table -/

theorem packedDelta_of_lt {rates : List Nat} {k : Nat} (h : k < rates.length) :
    packedDelta rates k = rates[k] - RAY := by
  rw [packedDelta, List.getElem?_eq_getElem h]

theorem packedDelta_of_length_le {rates : List Nat} {k : Nat} (h : rates.length ≤ k) : packedDelta rates k = 0 := by
  rw [packedDelta, List.getElem?_eq_none h]

/-- The byte at `8k + j` is the one R54 gives entry `k`. -/
theorem packedByte_toNat (rates : List Nat) (k : Nat) {j : Nat} (hj : j < 8) :
    (packedByte rates (8 * k + j)).toNat = (packedDelta rates k >>> (8 * (7 - j))) % 256 := by
  rw [packedByte, BitVec.toNat_ofNat, show (8 * k + j) / 8 = k by omega, show (8 * k + j) % 8 = j by omega]

/-- A byte that no entry fills is 0 (R54). -/
theorem packedByte_of_length_le {rates : List Nat} {a : Nat} (h : rates.length ≤ a / 8) : packedByte rates a = 0 := by
  rw [packedByte, packedDelta_of_length_le h, Nat.zero_shiftRight]
  rfl

/-- Every byte of the packed ROM, those beyond its end included, is `packedByte`. -/
theorem read_pack (rates : List Nat) (a : Nat) : (pack rates).rom.read a = packedByte rates a := by
  rw [pack, read_ofBytes, List.getD_eq_getElem?_getD, List.getElem?_map]
  by_cases ha : a < wordBytes * packedDepth rates
  · rw [List.getElem?_range ha]
    rfl
  · have hbeyond : rates.length ≤ a / 8 := by simp only [wordBytes, packedDepth] at ha; omega
    rw [List.getElem?_eq_none (by simpa using ha), packedByte_of_length_le hbeyond]
    rfl

/-- Bytes that all read 0 are the number 0. -/
theorem bigEndian_eq_zero {m : Memory} {a n : Nat} (h : ∀ j, j < n → m.read (a + j) = 0) : m.bigEndian a n = 0 := by
  induction n with
  | zero => rfl
  | succ n ih => rw [Memory.bigEndian, ih fun j hj => h j (by omega), h n (by omega)]; rfl

/-- The fields beyond the last entry are 0 (R54). -/
theorem field_pack_of_length_le {rates : List Nat} {k : Nat} (h : rates.length ≤ k) : field (pack rates) k = 0 :=
  bigEndian_eq_zero fun j hj => by
    rw [read_pack]
    exact packedByte_of_length_le (by simp only [fieldBytes] at hj ⊢; omega)

theorem pack_depth (rates : List Nat) : depth (pack rates) = packedDepth rates :=
  Nat.mul_div_cancel_left _ (by decide)

/-- The packed ROM is canonical and ends where its words end. -/
theorem romOk_pack (rates : List Nat) : romOk (pack rates) = true := by
  refine (romOk_iff _).mpr ⟨ofBytes_wf _, fun cell hcell => ?_⟩
  simpa [pack] using ofBytesAt_address_lt _ 0 cell hcell

section
variable {rates : List Nat} (hlen : rates.length ≤ 2 ^ W)
include hlen

/-- `MAX = E - 1` fits its register. -/
theorem pack_max : (pack rates).max.toNat = rates.length - 1 := by
  have hmod : (pack rates).max.toNat = (rates.length - 1) % 2 ^ W := BitVec.toNat_ofNat _ _
  rw [hmod, Nat.mod_eq_of_lt]
  have : 0 < 2 ^ W := by decide
  omega

/-- The four parts of R55's check hold of every packed table with an entry. -/
theorem pack_wf (hpos : 1 ≤ rates.length) : (pack rates).wf = true := by
  have hsize : (pack rates).romBytes = wordBytes * packedDepth rates := rfl
  refine (wf_iff _).mpr ⟨(sizeOk_iff _).mpr ?_, (denseOk_iff _).mpr ?_, (paddingOk_iff _).mpr fun k hk _ => ?_,
    romOk_pack rates⟩
  · simp only [hsize, wordBytes, packedDepth]; omega
  · rw [pack_depth, pack_max hlen, packedDepth, Nat.sub_add_cancel hpos]
  · rw [pack_max hlen] at hk
    exact field_pack_of_length_le (by omega)

end

/-- Settles O34: the packed table passes the check, and every byte of its ROM is `packedByte`, whose value R54 gives. -/
theorem packedTableIsWellFormed : Obligations.PackedTableIsWellFormed := by
  refine fun rates hpos hlen _ => ⟨pack_wf hlen hpos, fun k j hk hj => ?_, fun k j hk hj => ?_⟩
  · rw [read_pack, packedByte_toNat rates k hj, packedDelta_of_lt hk]
  · rw [read_pack]
    exact packedByte_of_length_le (by omega)

/-! ## No step stops -/

/-- In a configuration of R55 LOOKUP always answers a next state: its one fault would be a field outside the ROM. -/
theorem execLookup_exists_next {s : State} (hc : s.cfg.wf = true) : ∃ t, execLookup s = .next t := by
  refine (execLookup_next_or_fault s).resolve_right fun hfault => ?_
  obtain ⟨hle, hnone⟩ := (execLookup_fault_iff_memRead_none s).mp hfault
  rw [← fieldAddress, memRead_field hc hle] at hnone
  cases hnone

/-- Nor does the engine's turn stop. -/
theorem engineTurn_exists_next {s : State} (hc : s.cfg.wf = true) : ∃ t, engineTurn s = .next t := by
  cases he : s.eng with
  | idle => exact ⟨s, engineTurn_idle he⟩
  | run i a b =>
    rw [engineTurn_run he]
    cases i with
    | pow => exact execPow_exists_next s
    | lookup => exact execLookup_exists_next hc

/-- Settles O39: a host transaction and a Reset always answer a next state, and so does the engine's turn in a configuration of
R55. -/
theorem noStepStops : Obligations.NoStepStops := by
  intro s h
  have hc := h.config
  cases ho : s.order with
  | nil => rw [step_nil hc ho]; exact engineTurn_exists_next hc
  | cons e rest =>
    cases e with
    | regWrite idx v => exact ⟨_, step_regWrite hc ho⟩
    | regRead idx => exact ⟨_, step_regRead hc ho⟩
    | reset => exact ⟨_, step_reset hc ho⟩
    | engine => rw [step_engine hc ho]; exact engineTurn_exists_next (s := s.setOrder rest) hc

/-! ## The constants never change -/

/-- No effect of a step writes the constants (R50). -/
theorem step_cfg {s t : State} (hs : step s = .next t) : t.cfg = s.cfg := by
  cases step_effect hs with
  | ignored | read | accepted | illegal | opaWritten | opbWritten | reset => rfl
  | completed _ _ hx => obtain ⟨_, _, hcfg⟩ := exec_frame hx; exact hcfg

/-- Settles O41: every step keeps the constants, so every run does, and the ROM's bytes and the two registers are read off
them. -/
theorem tableNeverChanges : Obligations.TableNeverChanges := by
  intro s t k hk
  have hcfg : t.cfg = s.cfg :=
    runSteps_keeps (P := fun u => u.cfg = s.cfg) (fun _ _ hu hs => (step_cfg hs).trans hu) rfl hk
  refine ⟨hcfg, fun x => ?_, ?_, ?_⟩
  · rw [hcfg]
  · rw [regRead_maxbps, regRead_maxbps, hcfg]
  · rw [regRead_tableWords, regRead_tableWords, hcfg]

/-! ## The same block with another table -/

/-- `s` with the constants `c`. -/
def State.withCfg (c : Config) (s : State) : State := { s with cfg := c }

theorem setOrder_withCfg (c : Config) (rest : List Event) (s : State) :
    (s.withCfg c).setOrder rest = (s.setOrder rest).withCfg c := rfl

theorem deliver_withCfg (c : Config) (idx : BitVec 3) (v : Word) (s : State) :
    (s.withCfg c).deliver idx v = (s.deliver idx v).withCfg c := rfl

theorem resetEvent_withCfg (c : Config) (s : State) : resetEvent (s.withCfg c) = (resetEvent s).withCfg c := rfl

theorem operandA_withCfg (c : Config) (s : State) : (s.withCfg c).operandA = s.operandA := rfl

theorem operandB_withCfg (c : Config) (s : State) : (s.withCfg c).operandB = s.operandB := rfl

theorem ctrlWrite_withCfg (c : Config) (v : Word) (s : State) :
    ctrlWrite v (s.withCfg c) = (ctrlWrite v s).withCfg c := by
  obtain ⟨hb, hw⟩ | ⟨hb, i, hd, hw⟩ | ⟨hb, hd, hw⟩ := ctrlWrite_cases v s <;> rw [hw]
  · exact if_pos hb
  · exact ctrlWrite_accept (s := s.withCfg c) hb hd
  · exact ctrlWrite_illegal (s := s.withCfg c) hb hd

/-- A register write does not read the constants. -/
theorem regWrite_withCfg (c : Config) (idx : BitVec 3) (v : Word) (s : State) :
    regWrite idx v (s.withCfg c) = (regWrite idx v s).withCfg c := by
  rw [regWrite, regWrite]
  cases Slot.ofIdx idx with
  | ctrl => exact ctrlWrite_withCfg c v s
  | opa => exact (apply_ite (State.withCfg c) (s.status.busy = true) s (s.setOpa v)).symm
  | opb => exact (apply_ite (State.withCfg c) (s.status.busy = true) s (s.setOpb v)).symm
  | status | result | maxbps | tableWords | reserved => rfl

/-- A register read sees MAX and the length of the table, and none of its bytes. -/
theorem regRead_withCfg {c : Config} {s : State} (hmax : c.max = s.cfg.max) (hlen : c.romBytes = s.cfg.romBytes)
    (idx : BitVec 3) : regRead idx (s.withCfg c) = regRead idx s := by
  have hdepth : depth c = depth s.cfg := congrArg (· / wordBytes) hlen
  rw [regRead, regRead]
  cases Slot.ofIdx idx with
  | maxbps => exact hmax
  | tableWords => exact congrArg (BitVec.ofNat W) hdepth
  | ctrl | status | opa | opb | result | reserved => rfl

/-- POW does not read the constants. -/
theorem execPow_withCfg (c : Config) {s t : State} (h : execPow s = .next t) :
    execPow (s.withCfg c) = .next (t.withCfg c) := by
  obtain ⟨_, hrun, hk⟩ | ⟨_, hrun, hk⟩ := execPow_cases s <;> rw [hk] at h <;> cases h
  · rw [execPow, operandA_withCfg, operandB_withCfg, hrun]; rfl
  · rw [execPow, operandA_withCfg, operandB_withCfg, hrun]; rfl

/-- Nor does the engine's turn, unless it completes a LOOKUP. -/
theorem engineTurn_withCfg (c : Config) {s t : State} (hno : ∀ a b, s.eng ≠ .run .lookup a b)
    (h : engineTurn s = .next t) : engineTurn (s.withCfg c) = .next (t.withCfg c) := by
  obtain ⟨he, rfl⟩ | ⟨i, a, b, he, hx⟩ := engineTurn_cases h
  · exact engineTurn_idle (s := t.withCfg c) he
  · rw [engineTurn_run (s := s.withCfg c) he]
    cases i with
    | pow => exact execPow_withCfg c hx
    | lookup => exact absurd he (hno a b)

/-- Settles O37: each event commutes with the change of table, but for LOOKUP's Complete event, which the hypothesis excludes. -/
theorem onlyLookupReadsTheTable : Obligations.OnlyLookupReadsTheTable := by
  intro s t c hc hmax hlen hlook hs
  change step (s.withCfg c) = .next (t.withCfg c)
  have hno (hturn : s.order = [] ∨ ∃ rest, s.order = .engine :: rest) : ∀ a b, s.eng ≠ .run .lookup a b := by
    intro a b he
    obtain ⟨e, rest, ho, hne⟩ := hlook a b he
    simp [ho, hne] at hturn
  obtain ⟨_, ⟨idx, v, rest, ho, rfl⟩ | ⟨idx, rest, ho, rfl⟩ | ⟨rest, ho, rfl⟩ | ⟨rest, ho, he⟩ | ⟨ho, he⟩⟩ :=
    step_cases hs
  · rw [step_regWrite (s := s.withCfg c) hc ho, setOrder_withCfg, regWrite_withCfg]
  · rw [step_regRead (s := s.withCfg c) hc ho, setOrder_withCfg, regRead_withCfg (s := s.setOrder rest) hmax hlen,
      deliver_withCfg]
  · rw [step_reset (s := s.withCfg c) hc ho, setOrder_withCfg, resetEvent_withCfg]
  · rw [step_engine (s := s.withCfg c) hc ho, setOrder_withCfg]
    exact engineTurn_withCfg c (s := s.setOrder rest) (hno (.inr ⟨rest, ho⟩)) he
  · rw [step_nil (s := s.withCfg c) hc ho]
    exact engineTurn_withCfg c (hno (.inl ho)) he

end Sys2Proof.Machine

/-! PROOFS of the family 30_encoding: the command word and its decoder (R70 to R74), POW's loop as the product chain of R104 with
what each command's completion leaves, and the host's pseudo-operations `pow` and `lookup` (R76). -/

namespace Sys2Proof.Machine

/-! ## The command word -/

theorem commandWord_op (rsv : BitVec 248) (op : BitVec 8) : (commandWord rsv op).extractLsb' 0 8 = op :=
  BitVec.extractLsb'_append_eq_right

theorem commandWord_rsv (rsv : BitVec 248) (op : BitVec 8) : (commandWord rsv op).extractLsb' 8 248 = rsv :=
  BitVec.extractLsb'_append_eq_left

/-- A command word has `RSV = 0` (R70). -/
theorem encode_rsv (i : Instr) : (encode i).extractLsb' 8 248 = 0 := commandWord_rsv 0 (opcode i)

theorem decode_encode (i : Instr) : decode (encode i) = .ok i := by
  cases i with
  | pow => exact (Laws.Encoding.pow rfl).1
  | lookup => exact (Laws.Encoding.lookup rfl).1

/-- The encodings are the only words that decode to a command (R71). -/
theorem decode_eq_ok_iff {v : Word} {i : Instr} : decode v = .ok i ↔ v = encode i := by
  refine ⟨fun h => ?_, fun h => h ▸ decode_encode i⟩
  by_cases hpow : v = encode .pow
  · rw [hpow, decode_encode] at h
    cases h; exact hpow
  · by_cases hlookup : v = encode .lookup
    · rw [hlookup, decode_encode] at h
      cases h; exact hlookup
    · rw [decode_eq_error hpow hlookup] at h
      cases h

/-- A word with `RSV` other than 0 is illegal whatever its OP field is (R71). -/
theorem decode_commandWord_illegal {rsv : BitVec 248} (h : rsv ≠ 0) (op : BitVec 8) :
    decode (commandWord rsv op) = .error .illegalCommand := by
  have hne (i : Instr) : commandWord rsv op ≠ encode i := fun he =>
    h (by rw [← commandWord_rsv rsv op, he, encode_rsv])
  exact decode_eq_error (hne .pow) (hne .lookup)

/-- Settles O5: each command decodes from its encoding alone, and a busy block drops the write before decoding. -/
theorem decodeComparesWholeWord : Obligations.DecodeComparesWholeWord :=
  ⟨fun _ => decode_eq_ok_iff, fun _ => decode_eq_ok_iff, fun _ => decode_eq_error,
    fun _ op h => decode_commandWord_illegal h op, fun _ v hb => regWrite_busy hb 0 v⟩

/-- Settles O6: both directions are `decode_eq_ok_iff`, and the fields are the two halves of the appended word. -/
theorem decodeEncodeAgree : Obligations.DecodeEncodeAgree :=
  ⟨fun i _ => decode_encode i, fun _ _ => decode_eq_ok_iff.mp, fun rsv op => ⟨commandWord_op rsv op, commandWord_rsv rsv op⟩⟩

theorem decodeTableWord_encode (nbits : Nat) (i : Instr) : decodeTableWord nbits (encode i).toNat = some i := by
  rw [decodeTableWord_of_lt (encode i).isLt, BitVec.ofNat_toNat, BitVec.setWidth_eq, decode_encode]
  rfl

/-- Every number but the two opcodes is no command, whether it fits the word or not (R71, R74). -/
theorem decodeTableWord_eq_none {w : Nat} (hpow : w ≠ (encode .pow).toNat) (hlookup : w ≠ (encode .lookup).toNat)
    (nbits : Nat) : decodeTableWord nbits w = none := by
  by_cases hw : w < 2 ^ W
  · have hne (i : Instr) (hi : w ≠ (encode i).toNat) : BitVec.ofNat W w ≠ encode i := fun he =>
      hi (by rw [← he, BitVec.toNat_ofNat, Nat.mod_eq_of_lt hw])
    rw [decodeTableWord_of_lt hw, decode_eq_error (hne .pow hpow) (hne .lookup hlookup)]
    rfl
  · exact if_neg hw

/-- Settles O7: the first two numbers are the two encodings, and the others differ from both. -/
theorem tableWordsDecode : Obligations.TableWordsDecode :=
  ⟨decodeTableWord_encode 256 .pow, decodeTableWord_encode 256 .lookup,
    decodeTableWord_eq_none (by decide) (by decide) 256, decodeTableWord_eq_none (by decide) (by decide) 256,
    decodeTableWord_eq_none (by decide) (by decide) 256, decodeTableWord_eq_none (by decide) (by decide) 256,
    decodeTableWord_eq_none (by decide) (by decide) 256, decodeTableWord_eq_none (by decide) (by decide) 256⟩

/-! ## POW's loop computes the product chain -/

/-- The machine's multiply and the one the statements use agree (R101). -/
theorem spec_mul_eq_some_iff {p q v : Nat} : Spec.mul p q = some v ↔ mulround W p q = .ok v := by
  rw [mulround_ok_iff, Spec.mul]
  split
  next h => simp [h.1, h.2, eq_comm]
  next h => exact ⟨fun hn => (by cases hn), fun ⟨hm, ha, _⟩ => absurd ⟨hm, ha⟩ h⟩

theorem spec_mul_eq_none {p q : Nat} {c : Check} (h : mulround W p q = .error c) : Spec.mul p q = none := by
  cases hm : Spec.mul p q with
  | none => rfl
  | some v => rw [spec_mul_eq_some_iff.mp hm] at h; cases h

/-- Everything a pass that fails can do: the squaring fails, or it succeeds and the multiply of a set bit fails (R107). -/
theorem powPass_error_cases {w : Nat} {k : Work} {c : Check} (h : powPass w k = .error c) :
    mulround w k.wx k.wx = .error c ∨
    ∃ x, mulround w k.wx k.wx = .ok x ∧ k.wn % 2 = 1 ∧ mulround w k.wz x = .error c := by
  unfold powPass at h
  split at h
  next c' hx => cases h; exact .inl hx
  next x hx =>
    split at h
    next hodd =>
      split at h
      next c' hz => cases h; exact .inr ⟨x, hx, hodd, hz⟩
      next => cases h
    next => cases h

/-- The working registers after the pass for bit `i` of `b`: R104's running base and accumulator, and the bits above `i`. -/
structure Work.Tracks (a b i : Nat) (k : Work) : Prop where
  base : Spec.base a i = some k.wx
  chain : Spec.chain a b i = some k.wz
  bits : k.wn = b / 2 ^ (i + 1)

theorem powInit_tracks (a b : Nat) : (powInit a b).Tracks a b 0 where
  base := rfl
  chain := by
    rcases Nat.mod_two_eq_zero_or_one b with hb | hb <;> simp [Spec.chain, powInit, Nat.testBit_zero, hb]
  bits := by rw [Nat.zero_add, Nat.pow_one]; rfl

/-- A chain in which some multiply fails has no later value. -/
theorem chain_eq_none_of_le {a b i j : Nat} (hij : i ≤ j) (h : Spec.chain a b i = none) : Spec.chain a b j = none := by
  induction j, hij using Nat.le_induction with
  | base => exact h
  | succ j _ ih => rw [Spec.chain, ih]; rfl

namespace Work.Tracks
variable {a b i : Nat} {k : Work} (ht : k.Tracks a b i)
include ht

theorem base_succ : Spec.base a (i + 1) = Spec.mul k.wx k.wx := by
  rw [Spec.base, ht.base]; rfl

/-- The next bit that the chain looks at is the lowest one left in `wn`. -/
theorem testBit_succ : b.testBit (i + 1) = decide (k.wn % 2 = 1) := by
  rw [ht.bits, Nat.testBit_eq_decide_div_mod_eq]

theorem chain_succ : Spec.chain a b (i + 1) =
    (Spec.mul k.wx k.wx).bind fun x => if k.wn % 2 = 1 then Spec.mul k.wz x else some k.wz := by
  rw [Spec.chain, ht.chain, Option.bind_some, ht.base_succ, ht.testBit_succ]
  simp only [decide_eq_true_eq]

/-- A pass that succeeds takes one bit of the chain. -/
theorem powPass_ok {k' : Work} (h : powPass W k = .ok k') : k'.Tracks a b (i + 1) := by
  obtain ⟨x, hx, hwx, hwn, _, hbit⟩ := powPass_cases h
  have hsq : Spec.mul k.wx k.wx = some x := spec_mul_eq_some_iff.mpr hx
  refine ⟨by rw [ht.base_succ, hsq, hwx], ?_, by rw [hwn, ht.bits, Nat.div_div_eq_div_mul, ← Nat.pow_succ]⟩
  rw [ht.chain_succ, hsq, Option.bind_some]
  obtain ⟨hodd, hz, _⟩ | ⟨heven, hz, _⟩ := hbit
  · rw [if_pos hodd, spec_mul_eq_some_iff.mpr hz]
  · rw [if_neg heven, hz]

/-- A pass that fails is one where the chain fails. -/
theorem powPass_error {c : Check} (h : powPass W k = .error c) : Spec.chain a b (i + 1) = none := by
  rw [ht.chain_succ]
  obtain hx | ⟨x, hx, hodd, hz⟩ := powPass_error_cases h
  · rw [spec_mul_eq_none hx]; rfl
  · rw [spec_mul_eq_some_iff.mpr hx, Option.bind_some, if_pos hodd, spec_mul_eq_none hz]

/-- While bits are left, the next one is a bit of `b`. -/
theorem succ_le_log2 (h : k.wn ≠ 0) : i + 1 ≤ b.log2 := by
  have hle : 2 ^ (i + 1) ≤ b := Nat.le_of_not_lt fun hlt => h (ht.bits.trans (Nat.div_eq_of_lt hlt))
  have : 0 < 2 ^ (i + 1) := Nat.two_pow_pos _
  exact (Nat.le_log2 (by omega)).mpr hle

/-- With no bits left, all of them are behind. -/
theorem log2_le (h : k.wn = 0) : b.log2 ≤ i := by
  rw [ht.bits, Nat.div_eq_zero_iff_lt (Nat.two_pow_pos _)] at h
  by_cases hb : b = 0
  · subst hb; exact Nat.zero_le i
  · exact Nat.lt_succ_iff.mp ((Nat.log2_lt hb).mpr h)

end Work.Tracks

/-- From bit `i` on, the loop answers the chain's last value, or fails where the chain does (R102, R104). -/
theorem powLoop_wz_eq_chain {a b fuel : Nat} : ∀ {i : Nat} {k : Work}, k.Tracks a b i → i ≤ b.log2 → k.wn < 2 ^ fuel →
    (powLoop W fuel k).toOption.map Work.wz = Spec.chain a b b.log2 := by
  have hdone {i : Nat} {k : Work} (fuel : Nat) (ht : k.Tracks a b i) (hi : i ≤ b.log2) (hn : k.wn = 0) :
      (powLoop W fuel k).toOption.map Work.wz = Spec.chain a b b.log2 := by
    rw [powLoop_done W fuel hn, ← Nat.le_antisymm hi (ht.log2_le hn), ht.chain]; rfl
  induction fuel with
  | zero => exact fun ht hi hlt => hdone 0 ht hi (by omega)
  | succ f ih =>
    intro i k ht hi hlt
    by_cases hn : k.wn = 0
    · exact hdone (f + 1) ht hi hn
    · have hi' := ht.succ_le_log2 hn
      rw [powLoop_succ, if_neg hn]
      cases hp : powPass W k with
      | error c => exact (chain_eq_none_of_le hi' (ht.powPass_error hp)).symm
      | ok k' =>
        obtain ⟨_, _, _, hwn, _⟩ := powPass_cases hp
        exact ih (ht.powPass_ok hp) hi' (by omega)

/-- POW's run answers `x^n` as R103 and R104 give it, and fails where that has no value (R112). -/
theorem powRun_wz_eq_power (a : Nat) {b : Nat} (hb : b < 2 ^ W) :
    (powRun W a b).toOption.map Work.wz = Spec.power a b := by
  unfold powRun Spec.power
  split
  · rfl
  · exact powLoop_wz_eq_chain (powInit_tracks a b) (Nat.zero_le _) (Nat.lt_of_le_of_lt (Nat.div_le_self b 2) hb)

/-! ## What each command's completion leaves -/

/-- What POW leaves in STATUS and RESULT: success and the power, or ARITHMETIC_OVERFLOW and 0 where it has none. -/
theorem execPow_outcome (s : State) : ∃ t, execPow s = .next t ∧
    ((t.status.word = 0x02 ∧ Spec.power s.operandA.toNat s.operandB.toNat = some t.result.toNat) ∨
     (t.status.word = 0x12 ∧ t.result = 0 ∧ Spec.power s.operandA.toNat s.operandB.toNat = none)) := by
  rw [← powRun_wz_eq_power _ s.operandB.isLt]
  obtain ⟨k, hk, hx⟩ | ⟨c, hk, hx⟩ := execPow_cases s
  · refine ⟨_, hx, .inl ⟨word_success, ?_⟩⟩
    rw [hk, complete_result, BitVec.toNat_ofNat, Nat.mod_eq_of_lt (powRun_lt s.operandA.isLt hk)]
    rfl
  · exact ⟨_, hx, .inr ⟨word_error .arithmeticOverflow, rfl, by rw [hk]; rfl⟩⟩

/-- A rate is a 64-bit field plus `RAY`, so it fits a register (R134). -/
theorem rate_lt (c : Config) (bps : Nat) : field c bps + RAY < 2 ^ W := by
  have hRAY : 2 ^ 64 + RAY < 2 ^ W := by decide
  exact Nat.lt_trans (Nat.add_lt_add_right (field_lt c bps) RAY) hRAY

/-- What LOOKUP leaves in STATUS and RESULT: success and the rate, or OUT_OF_RANGE and 0 beyond MAX. -/
theorem execLookup_outcome {s : State} (hc : s.cfg.wf = true) : ∃ t, execLookup s = .next t ∧
    ((t.status.word = 0x02 ∧ s.operandA.toNat ≤ s.cfg.max.toNat ∧
        t.result.toNat = Spec.bytes8 s.cfg.rom (8 * s.operandA.toNat) + RAY) ∨
     (t.status.word = 0x22 ∧ t.result = 0 ∧ s.cfg.max.toNat < s.operandA.toNat)) := by
  obtain ⟨hr, hx⟩ | ⟨hr, _⟩ := execLookup_cases s
  · exact ⟨_, hx, .inr ⟨word_error .outOfRange, rfl, hr⟩⟩
  · refine ⟨_, execLookup_inRange hc hr, .inl ⟨word_success, hr, ?_⟩⟩
    rw [complete_result, BitVec.toNat_ofNat, Nat.mod_eq_of_lt (rate_lt _ _), field_eq_bytes8]

/-- No command touches the events to come or the record of reads (assumption logs 4 and 5). -/
theorem exec_order_received {i : Instr} {s t : State} (h : exec i s = .next t) :
    t.order = s.order ∧ t.received = s.received := by
  obtain ⟨v, rfl | rfl⟩ | ⟨e, rfl | rfl⟩ := exec_next h <;> exact ⟨rfl, rfl⟩

/-! ## The host's transactions of a command -/

/-- `s` after `polls` reads of STATUS, with `rest` still to come. -/
def State.polled (polls : Nat) (rest : List Event) (s : State) : State :=
  { s with order := rest, received := List.replicate polls (1, s.status.word) ++ s.received }

/-- The transactions of command `i` after its operand writes (R76), with `rest` to come after them. -/
def commandEvents (i : Instr) (polls : Nat) (rest : List Event) : List Event :=
  wr .ctrl (encode i) :: (List.replicate polls (rd .status) ++ .engine :: rd .status :: rd .result :: rest)

theorem powOp_append (x n : Word) (polls : Nat) (rest : List Event) :
    powOp x n polls ++ rest = wr .opa x :: wr .opb n :: commandEvents .pow polls rest := by
  simp [powOp, waitDone, commandEvents]

theorem lookupOp_append (b : Word) (polls : Nat) (rest : List Event) :
    lookupOp b polls ++ rest = wr .opa b :: commandEvents .lookup polls rest := by
  simp [lookupOp, waitDone, commandEvents]

section
variable {s : State} {v : Word} {polls : Nat} {rest : List Event} (hc : s.cfg.wf = true)
include hc

theorem step_rd_status (ho : s.order = rd .status :: rest) :
    step s = .next ((s.setOrder rest).deliver 1 s.status.word) := step_regRead hc ho

theorem step_rd_result (ho : s.order = rd .result :: rest) :
    step s = .next ((s.setOrder rest).deliver 4 s.result) := step_regRead hc ho

theorem step_wr_opa (hb : s.status.busy = false) (ho : s.order = wr .opa v :: rest) :
    step s = .next ((s.setOrder rest).setOpa v) := by
  rw [step_regWrite hc ho]
  exact congrArg _ (regWrite_opa_idle (s := s.setOrder rest) hb)

theorem step_wr_opb (hb : s.status.busy = false) (ho : s.order = wr .opb v :: rest) :
    step s = .next ((s.setOrder rest).setOpb v) := by
  rw [step_regWrite hc ho]
  exact congrArg _ (regWrite_opb_idle (s := s.setOrder rest) hb)

/-- Reads of STATUS in a row all return the same word, for a read changes nothing (R33). -/
theorem runSteps_polls (ho : s.order = List.replicate polls (rd .status) ++ rest) :
    runSteps polls s = .next (s.polled polls rest) := by
  induction polls generalizing s with
  | zero => cases s; cases ho; rfl
  | succ n ih =>
    rw [List.replicate_succ, List.cons_append] at ho
    let s₁ := (s.setOrder (List.replicate n (rd .status) ++ rest)).deliver 1 s.status.word
    rw [runSteps_succ_of_next n (step_rd_status hc ho), ih (s := s₁) hc rfl]
    simp [s₁, State.polled, List.replicate_succ']

/-- A command issued to an idle block: `polls` reads of STATUS find it busy, it completes as `exec` says of the state after
those reads, and the last two reads return the STATUS and RESULT it leaves (R76). -/
theorem runSteps_command {t : State} {i : Instr} (hb : s.status.busy = false)
    (ho : s.order = commandEvents i polls rest)
    (hx : exec i ((accept i s).polled polls (rd .status :: rd .result :: rest)) = .next t) :
    ∃ u, runSteps (polls + 4) s = .next u ∧
      u.received = (4, t.result) :: (1, t.status.word) :: (List.replicate polls (1, 0x01) ++ s.received) ∧
      u.opa = s.opa ∧ u.opb = s.opb ∧ u.eng = .idle ∧ u.order = rest := by
  obtain ⟨hopa, hopb, hcfg⟩ := exec_frame hx
  obtain ⟨hord, hrec⟩ := exec_order_received hx
  have hct : t.cfg.wf = true := hcfg ▸ hc
  have haccept := step_accept hb hc ho (decode_encode i)
  have hpolls := runSteps_polls (s := accept i (s.setOrder (commandEvents i polls rest).tail)) hc rfl
  have hturn : step ((accept i s).polled polls (.engine :: rd .status :: rd .result :: rest)) = .next t :=
    (step_engine (s := (accept i s).polled polls _) hc rfl).trans ((engineTurn_run rfl).trans hx)
  let t₁ := (t.setOrder (rd .result :: rest)).deliver 1 t.status.word
  have hstatus : step t = .next t₁ := step_rd_status hct hord
  have hresult : step t₁ = .next ((t₁.setOrder rest).deliver 4 t.result) := step_rd_result (s := t₁) hct rfl
  refine ⟨(t₁.setOrder rest).deliver 4 t.result, ?_, ?_, hopa, hopb, (exec_ended hx).eng, rfl⟩
  · calc runSteps (polls + 4) s
      _ = runSteps (polls + 3) (accept i (s.setOrder (commandEvents i polls rest).tail)) :=
        runSteps_succ_of_next (polls + 3) haccept
      _ = runSteps 3 _ := runSteps_add 3 hpolls
      _ = runSteps 2 t := runSteps_succ_of_next 2 hturn
      _ = runSteps 1 t₁ := runSteps_succ_of_next 1 hstatus
      _ = .next ((t₁.setOrder rest).deliver 4 t.result) := runSteps_succ_of_next 0 hresult
  · simp [t₁, hrec, State.polled]

end

/-- Settles O45: two operand writes, then the command, whose completion leaves the power or the overflow. -/
theorem powPseudoOperation : Obligations.PowPseudoOperation := by
  intro s x n polls rest hc hb ho
  rw [powOp_append] at ho
  let s₁ := (s.setOrder (wr .opb n :: commandEvents .pow polls rest)).setOpa x
  let s₂ := (s₁.setOrder (commandEvents .pow polls rest)).setOpb n
  have hopa : step s = .next s₁ := step_wr_opa hc hb ho
  have hopb : step s₁ = .next s₂ := step_wr_opb hc hb rfl
  obtain ⟨t, hx, hout⟩ := execPow_outcome ((accept .pow s₂).polled polls (rd .status :: rd .result :: rest))
  obtain ⟨u, hrun, hrec, hu⟩ := runSteps_command (s := s₂) hc hb rfl hx
  refine ⟨u, t.status.word, t.result, ?_, hrec, hout, hu⟩
  rw [runSteps_succ_of_next (polls + 5) hopa, runSteps_succ_of_next (polls + 4) hopb, hrun]

/-- Settles O46: one operand write, then the command, whose completion leaves the rate or the range error. -/
theorem lookupPseudoOperation : Obligations.LookupPseudoOperation := by
  intro s x polls rest hc hb ho
  rw [lookupOp_append] at ho
  let s₁ := (s.setOrder (commandEvents .lookup polls rest)).setOpa x
  have hopa : step s = .next s₁ := step_wr_opa hc hb ho
  obtain ⟨t, hx, hout⟩ :=
    execLookup_outcome (s := (accept .lookup s₁).polled polls (rd .status :: rd .result :: rest)) hc
  obtain ⟨u, hrun, hrec, hu⟩ := runSteps_command (s := s₁) hc hb rfl hx
  refine ⟨u, t.status.word, t.result, ?_, hrec, hout, hu⟩
  rw [runSteps_succ_of_next (polls + 4) hopa, hrun]

end Sys2Proof.Machine

/-! PROOFS of the family 40_fixedpointpow: the checked multiply and when its checks fail (R101, R105, R113), what POW leaves and its
frame (R104, R112), the work of a run (R108), and the values it computes (R109). -/

namespace Sys2Proof.Machine

/-! ## The checked multiply -/

/-- Check M is the first to be decided, on the product alone (R101, R107). -/
theorem mulround_precision_iff {w p q : Nat} : mulround w p q = .error .precision ↔ 2 ^ w ≤ p * q := by
  unfold mulround
  split
  next h => simp [h]
  next h => split <;> simp [h]

/-- Check A fails where the product passes check M and the rounding addition leaves the range (R106, R107). -/
theorem mulround_wrap_iff {w p q : Nat} :
    mulround w p q = .error .wrap ↔ p * q < 2 ^ w ∧ 2 ^ w ≤ p * q + HALF := by
  unfold mulround
  split
  next h => simp [h]
  next h => split <;> simp [Nat.lt_of_not_le h, *]

/-- A product that is a whole multiple of `RAY` is divided exactly: `HALF` is lost in the rounding (R109 (d)). -/
theorem mulround_exact {w p q v : Nat} (hpq : p * q = v * RAY) (hfit : v * RAY + HALF < 2 ^ w) :
    mulround w p q = .ok v := by
  have hHALF : HALF < RAY := by decide
  rw [mulround_ok_iff, hpq]
  refine ⟨by omega, hfit, ?_⟩
  rw [Nat.add_comm, Nat.add_mul_div_right _ _ RAY_pos, Nat.div_eq_of_lt hHALF, Nat.zero_add]

/-- Settles O22: one case per check, and the quotient's defining bounds. -/
theorem mulroundChecksThenRounds : Obligations.MulroundChecksThenRounds := by
  intro p q _ _
  refine ⟨mulround_precision_iff.mpr, fun hm ha => mulround_wrap_iff.mpr ⟨hm, ha⟩, fun hm ha => ?_⟩
  have hok := mulround_ok_iff.mpr ⟨hm, ha, rfl⟩
  exact ⟨_, hok, rfl, mulround_lt hok, Nat.div_mul_le_self _ _, Nat.lt_mul_of_div_lt (Nat.lt_succ_self _) RAY_pos⟩

/-- Dividing the wrapped product back by `x` gives `q` only where nothing wrapped: the quotient times `x` is at most the wrapped
product. -/
theorem mod_div_eq_iff_mul_lt {w x q : Nat} (hx : x ≠ 0) : ((x * q) % 2 ^ w) / x = q ↔ x * q < 2 ^ w := by
  refine ⟨fun h => ?_, fun h => ?_⟩
  · calc x * q = x * (((x * q) % 2 ^ w) / x) := by rw [h]
      _ ≤ (x * q) % 2 ^ w := Nat.mul_div_le _ _
      _ < 2 ^ w := Nat.mod_lt _ (Nat.two_pow_pos w)
  · rw [Nat.mod_eq_of_lt h, Nat.mul_div_cancel_left q (Nat.pos_of_ne_zero hx)]

/-- Settles O23: the back test is `mod_div_eq_iff_mul_lt`, and a zero product is zero whole units. -/
theorem divisionBackTestIsCheckM : Obligations.DivisionBackTestIsCheckM := by
  intro x q _ _
  have hzero : 0 * RAY + HALF < 2 ^ W := by decide
  refine ⟨mod_div_eq_iff_mul_lt, fun hx => ?_, mulround_exact (by simp) hzero, mulround_exact (by simp) hzero⟩
  rw [Ne, mod_div_eq_iff_mul_lt hx, mulround_precision_iff, Nat.not_lt]

/-- The largest square below `2^256` is `(2^128 - 1)^2`, which leaves more than `HALF` of room. -/
theorem square_ne_wrap (x : Nat) : mulround W x x ≠ .error .wrap := by
  rw [Ne, mulround_wrap_iff, HALF, RAY, W]
  rintro ⟨hm, ha⟩
  have hx : x ≤ 2 ^ 128 - 1 := by
    by_contra hgt
    have : 2 ^ 128 * 2 ^ 128 ≤ x * x := Nat.mul_le_mul (by omega) (by omega)
    omega
  have : x * x ≤ (2 ^ 128 - 1) * (2 ^ 128 - 1) := Nat.mul_le_mul hx hx
  omega

/-- The largest multiple of `RAY` below `2^256` leaves `2^256 mod RAY` of room, which is more than `HALF`. -/
theorem mul_RAY_ne_wrap (x : Nat) : mulround W RAY x ≠ .error .wrap := by
  rw [Ne, mulround_wrap_iff, HALF, RAY, W]
  omega

/-- Settles O24: by the room that the largest square and the largest multiple of `RAY` leave below `2^256`. -/
theorem checkAUnreachableInSquaring : Obligations.CheckAUnreachableInSquaring := fun x =>
  ⟨square_ne_wrap x, mul_RAY_ne_wrap x⟩

/-! ## What POW leaves, and its frame -/

/-- A running command's operand `b` is the one latched at its acceptance (R35, R73). -/
theorem operandB_run {s : State} {i : Instr} {a b : Word} (h : s.eng = .run i a b) : s.operandB = b := by
  simp [State.operandB, h]

/-- POW's Complete event always answers a next state: it completes or raises (R112). -/
theorem exec_pow_exists_next (s : State) : ∃ t, exec .pow s = .next t := execPow_exists_next s

/-- The frame of every command in the form the statements give it, with every byte of the ROM. -/
theorem exec_frame_full {i : Instr} {s t : State} (h : exec i s = .next t) :
    t.opa = s.opa ∧ t.opb = s.opb ∧ t.cfg = s.cfg ∧ (∀ x, t.cfg.rom.read x = s.cfg.rom.read x) ∧
      t.order = s.order ∧ t.received = s.received := by
  obtain ⟨hopa, hopb, hcfg⟩ := exec_frame h
  exact ⟨hopa, hopb, hcfg, fun x => by rw [hcfg], exec_order_received h⟩

section
variable {s t : State} {a b : Word} (hrun : s.eng = .run .pow a b) (hx : exec .pow s = .next t)
include hrun hx

/-- `execPow_outcome` on the operands that the running command latched. -/
theorem exec_pow_outcome :
    (t.status.word = 0x02 ∧ Spec.power a.toNat b.toNat = some t.result.toNat) ∨
    (t.status.word = 0x12 ∧ t.result = 0 ∧ Spec.power a.toNat b.toNat = none) := by
  obtain ⟨t', hx', hout⟩ := execPow_outcome s
  rw [operandA_run hrun, operandB_run hrun] at hout
  cases hx.symm.trans hx'
  exact hout

/-- Where the power has a value, POW completes with it. -/
theorem exec_pow_result {v : Nat} (hv : Spec.power a.toNat b.toNat = some v) :
    t.result.toNat = v ∧ t.status.word = 0x02 := by
  obtain ⟨hst, hp⟩ | ⟨_, _, hp⟩ := exec_pow_outcome hrun hx
  · exact ⟨Option.some.inj (hp.symm.trans hv), hst⟩
  · cases hp.symm.trans hv

end

/-- Settles O25: where the power has a value POW completes with it, and the frame is that of every command. -/
theorem powCompletesWithProductChain : Obligations.PowCompletesWithProductChain := by
  intro s a b v hrun hv
  obtain ⟨t, hx⟩ := exec_pow_exists_next s
  obtain ⟨hres, hst⟩ := exec_pow_result hrun hx hv
  exact ⟨t, hx, hres, hst, (exec_ended hx).eng, exec_frame_full hx⟩

/-- Settles O26: of POW's two outcomes, one has a power and STATUS 0x02, the other none and STATUS 0x12. -/
theorem powOverflowsExactlyWhenAMultiplyFails : Obligations.PowOverflowsExactlyWhenAMultiplyFails := by
  intro s a b hrun
  obtain ⟨t, hx⟩ := exec_pow_exists_next s
  obtain ⟨hst, hp⟩ | ⟨hst, hres, hp⟩ := exec_pow_outcome hrun hx
  · exact ⟨t, hx, by simp [hst, hp], by simp [hp], .inr hst, exec_frame_full hx⟩
  · exact ⟨t, hx, by simp [hst, hp], fun _ => ⟨hres, (exec_ended hx).eng⟩, .inl hst, exec_frame_full hx⟩

/-! ## The work of a run -/

/-- Everything a turn of the loop that succeeds can do: it is over, or one pass succeeds and the loop goes on. -/
theorem powLoop_succ_cases {w fuel : Nat} {k k' : Work} (h : powLoop w (fuel + 1) k = .ok k') :
    (k.wn = 0 ∧ k' = k) ∨ (k.wn ≠ 0 ∧ ∃ k₁, powPass w k = .ok k₁ ∧ powLoop w fuel k₁ = .ok k') := by
  rw [powLoop_succ] at h
  split at h
  next hn => cases h; exact .inl ⟨hn, rfl⟩
  next hn =>
    split at h
    next => cases h
    next k₁ hp => exact .inr ⟨hn, k₁, hp, h⟩

/-- The bit length falls by one with every halving. -/
theorem log2_half {b : Nat} (h : b / 2 ≠ 0) : b.log2 = (b / 2).log2 + 1 := by
  rw [Nat.log2_def b, if_pos (by omega)]

/-- The loop squares once for every bit of `b` above the lowest (R108). -/
theorem powLoop_squarings {w fuel : Nat} : ∀ {b : Nat} {k k' : Work}, k.wn = b / 2 → k.wn < 2 ^ fuel →
    powLoop w fuel k = .ok k' → k'.squarings = k.squarings + b.log2 := by
  have hdone {b : Nat} {k : Work} (hb : k.wn = b / 2) (hn : k.wn = 0) : k.squarings = k.squarings + b.log2 := by
    rw [Nat.log2_def, if_neg (by omega), Nat.add_zero]
  induction fuel with
  | zero => intro b k k' hb hlt h; cases h; exact hdone hb (by omega)
  | succ f ih =>
    intro b k k' hb hlt h
    obtain ⟨hn, rfl⟩ | ⟨hn, k₁, hp, hloop⟩ := powLoop_succ_cases h
    · exact hdone hb hn
    · obtain ⟨_, _, _, hwn, hsq, _⟩ := powPass_cases hp
      rw [ih (hb ▸ hwn) (by omega) hloop, hsq, log2_half (b := b) (hb ▸ hn), Nat.add_right_comm, Nat.add_assoc]

/-- The 1 bits among the lowest `m + 1`: the lowest bit, and those of the half. -/
theorem countP_testBit_succ (m n : Nat) :
    (List.range (m + 1)).countP (fun i => n.testBit i) = n % 2 + (List.range m).countP (fun i => (n / 2).testBit i) := by
  have hsucc : (fun i => n.testBit i) ∘ Nat.succ = fun i => (n / 2).testBit i := funext fun i => Nat.testBit_add_one n i
  rw [List.range_succ_eq_map, List.countP_cons, List.countP_map, hsucc, Nat.testBit_zero, Nat.add_comm]
  rcases Nat.mod_two_eq_zero_or_one n with hn | hn <;> simp [hn]

/-- The loop multiplies once for every 1 bit of its exponent (R108). -/
theorem powLoop_multiplies {w fuel : Nat} : ∀ {k k' : Work}, powLoop w fuel k = .ok k' →
    k'.multiplies = k.multiplies + (List.range fuel).countP fun i => k.wn.testBit i := by
  induction fuel with
  | zero => intro k k' h; cases h; rfl
  | succ f ih =>
    intro k k' h
    obtain ⟨hn, rfl⟩ | ⟨_, k₁, hp, hloop⟩ := powLoop_succ_cases h
    · simp [hn]
    · rw [countP_testBit_succ, ih hloop]
      obtain ⟨_, _, _, hwn, _, ⟨hodd, _, hmul⟩ | ⟨heven, _, hmul⟩⟩ := powPass_cases hp
      · rw [hwn, hmul, hodd, Nat.add_assoc]
      · rw [hwn, hmul, Nat.mod_two_ne_one.mp heven, Nat.zero_add]

/-- Half of a `W`-bit exponent has no bit 255, so at most 255 of its bits are 1. -/
theorem popcount_half_le {b : Nat} (hb : b < 2 ^ 256) : Spec.popcount (b / 2) ≤ 255 := by
  have htop : (b / 2).testBit 255 = false := Nat.testBit_lt_two_pow (by omega)
  rw [Spec.popcount, List.range_succ, List.countP_append, List.countP_singleton, htop]
  exact List.countP_le_length.trans_eq List.length_range

/-- The work of a run on a base other than 0 (R108). -/
theorem powRun_counts {a b : Nat} {k : Work} (ha : a ≠ 0) (hb : b < 2 ^ W) (h : powRun W a b = .ok k) :
    k.squarings = b.log2 ∧ k.multiplies = Spec.popcount (b / 2) := by
  rw [powRun, if_neg ha] at h
  have hlt : (powInit a b).wn < 2 ^ W := Nat.lt_of_le_of_lt (Nat.div_le_self b 2) hb
  exact ⟨(powLoop_squarings rfl hlt h).trans (Nat.zero_add _), (powLoop_multiplies h).trans (Nat.zero_add _)⟩

/-- A zero base completes at once (R103). -/
theorem powRun_zero_base (w b : Nat) : powRun w 0 b = .ok ⟨0, if b = 0 then RAY else 0, b, 0, 0⟩ := rfl

/-- With an exponent of 0 or 1 no bit is left for the loop. -/
theorem powRun_of_le_one {w a b : Nat} (ha : a ≠ 0) (hb : b ≤ 1) : powRun w a b = .ok (powInit a b) := by
  rw [powRun, if_neg ha]
  exact powLoop_done w w (show b / 2 = 0 by omega)

/-- Neither a zero base nor an exponent of 0 or 1 does any work (R103, R109). -/
theorem powRun_no_work {a b : Nat} {k : Work} (h : powRun W a b = .ok k) (hab : a = 0 ∨ b ≤ 1) :
    k.squarings = 0 ∧ k.multiplies = 0 := by
  by_cases ha : a = 0
  · subst ha
    rw [powRun_zero_base] at h
    cases h; exact ⟨rfl, rfl⟩
  · rw [powRun_of_le_one ha (hab.resolve_left ha)] at h
    cases h; exact ⟨rfl, rfl⟩

/-- Settles O27: `log2 b` squarings and the popcount's multiplies; a zero base does neither. -/
theorem powWorkCounts : Obligations.PowWorkCounts := by
  intro a b k h
  have hb : b.toNat < 2 ^ W := b.isLt
  refine ⟨fun ha hb0 => ?_, fun hab => powRun_no_work h (hab.imp (by simp +contextual) (by simp +contextual)), ?_⟩
  · have hb0 : b.toNat ≠ 0 := by simpa [BitVec.toNat_eq] using hb0
    obtain ⟨hsq, hmul⟩ := powRun_counts (by simpa [BitVec.toNat_eq] using ha) hb h
    rw [hsq]
    exact ⟨Nat.log2_self_le hb0, Nat.lt_log2_self, hmul⟩
  · by_cases ha : a.toNat = 0
    · obtain ⟨hsq, hmul⟩ := powRun_no_work h (.inl ha)
      omega
    · obtain ⟨hsq, hmul⟩ := powRun_counts ha hb h
      have hlog : b.toNat.log2 ≤ 255 := by
        by_cases hb0 : b.toNat = 0
        · simp [hb0]
        · exact Nat.lt_succ_iff.mp ((Nat.log2_lt hb0).mpr hb)
      exact ⟨hsq ▸ hlog, hmul ▸ popcount_half_le hb⟩

/-! ## Whole units -/

/-- The product of whole units is whole units, where it fits. -/
theorem spec_mul_whole {u v : Nat} (hfit : u * v * RAY * RAY + HALF < 2 ^ W) :
    Spec.mul (u * RAY) (v * RAY) = some (u * v * RAY) :=
  spec_mul_eq_some_iff.mpr (mulround_exact (by ring) hfit)

section
variable {m n : Nat} (hm : 1 ≤ m) (hfit : m ^ n * RAY * RAY + HALF < 2 ^ W)
include hm hfit

/-- A product of two powers of `m` fits where `m^n` does and the exponents add up to at most `n`. -/
theorem spec_mul_whole_pow {d e : Nat} (hde : d + e ≤ n) :
    Spec.mul (m ^ d * RAY) (m ^ e * RAY) = some (m ^ (d + e) * RAY) := by
  have hle : m ^ (d + e) * RAY * RAY ≤ m ^ n * RAY * RAY := by gcongr
  rw [Nat.pow_add] at hle ⊢
  exact spec_mul_whole (by omega)

/-- The running base after `i` squarings is `m^(2^i)` units. -/
theorem base_whole {i : Nat} (hi : 2 ^ i ≤ n) : Spec.base (m * RAY) i = some (m ^ 2 ^ i * RAY) := by
  induction i with
  | zero => rw [Nat.pow_zero, Nat.pow_one]; rfl
  | succ i ih =>
    have hsum : 2 ^ i + 2 ^ i = 2 ^ (i + 1) := by rw [Nat.pow_succ, Nat.mul_two]
    rw [Spec.base, ih (by omega), Option.bind_some, spec_mul_whole_pow hm hfit (by omega), hsum]

/-- The accumulator after bit `i` is `m` to the bits of `n` up to `i`. -/
theorem chain_whole {i : Nat} (hi : i ≤ n.log2) :
    Spec.chain (m * RAY) n i = some (m ^ (n % 2 ^ (i + 1)) * RAY) := by
  induction i with
  | zero =>
    rw [Spec.chain, Nat.testBit_zero, Nat.zero_add, Nat.pow_one]
    rcases Nat.mod_two_eq_zero_or_one n with hn | hn <;> simp [hn]
  | succ i ih =>
    have hn : n ≠ 0 := by rintro rfl; simp at hi
    have hbit : n % 2 ^ (i + 1 + 1) = n % 2 ^ (i + 1) + 2 ^ (i + 1) * (n / 2 ^ (i + 1) % 2) := Nat.mod_pow_succ
    have hle : n % 2 ^ (i + 1 + 1) ≤ n := Nat.mod_le _ _
    rw [Spec.chain, ih (by omega), Option.bind_some, base_whole hm hfit ((Nat.le_log2 hn).mp hi), Option.bind_some,
      Nat.testBit_eq_decide_div_mod_eq]
    rcases Nat.mod_two_eq_zero_or_one (n / 2 ^ (i + 1)) with hb | hb
    · simp [hb, hbit]
    · rw [hb, Nat.mul_one] at hbit
      rw [if_pos (decide_eq_true hb), spec_mul_whole_pow hm hfit (hbit ▸ hle), hbit]

/-- A base of `m` whole units to the power `n` is `m^n` whole units. -/
theorem power_whole : Spec.power (m * RAY) n = some (m ^ n * RAY) := by
  have ha : m * RAY ≠ 0 := Nat.mul_ne_zero (by omega) RAY_pos.ne'
  rw [Spec.power, if_neg ha, chain_whole hm hfit le_rfl, Nat.mod_eq_of_lt Nat.lt_log2_self]

end

/-- Settles O29: the power of whole units is whole units, and POW completes with the power. -/
theorem powOfWholeUnits : Obligations.PowOfWholeUnits := by
  intro s a b m hrun hm ha hfit
  obtain ⟨t, hx⟩ := exec_pow_exists_next s
  exact ⟨t, hx, exec_pow_result hrun hx (by rw [ha]; exact power_whole hm hfit)⟩

/-! ## The identities -/

/-- `x^0` is unity for every base, zero too (R109 (a)). -/
theorem power_zero (a : Nat) : Spec.power a 0 = some RAY := by
  by_cases ha : a = 0
  · rw [Spec.power, if_pos ha]; rfl
  · rw [Spec.power, if_neg ha]; rfl

/-- `x^1` is the base (R109 (b)). -/
theorem power_one (a : Nat) : Spec.power a 1 = some a := by
  by_cases ha : a = 0
  · rw [Spec.power, if_pos ha, ha]; rfl
  · rw [Spec.power, if_neg ha]; rfl

/-- A zero base to a positive exponent is 0 (R103, R109 (c)). -/
theorem power_zero_base {n : Nat} (hn : 1 ≤ n) : Spec.power 0 n = some 0 := by
  rw [Spec.power, if_pos rfl, if_neg (by omega)]

/-- Unity to any exponent is unity: one whole unit (R109 (e)). -/
theorem power_RAY (n : Nat) : Spec.power RAY n = some RAY := by
  have hfit : 1 ^ n * RAY * RAY + HALF < 2 ^ W := by rw [Nat.one_pow]; decide
  simpa using power_whole le_rfl hfit

/-- Settles O28: the four powers by their values, the loop that does not run, and the exact product `RAY * v`. -/
theorem powIdentities : Obligations.PowIdentities := by
  refine ⟨fun s a b hrun => ?_, fun x n hn => ?_, fun v hfit => mulround_exact (Nat.mul_comm _ _) (by rwa [Nat.mul_comm])⟩
  · obtain ⟨t, hx⟩ := exec_pow_exists_next s
    refine ⟨t, ?_, ?_, ?_, fun ha => ⟨hx, exec_pow_result hrun hx (ha ▸ power_RAY _)⟩⟩
    · rintro rfl
      exact ⟨hx, exec_pow_result hrun hx (power_zero _)⟩
    · rintro rfl
      obtain ⟨hres, hst⟩ := exec_pow_result hrun hx (power_one _)
      exact ⟨hx, BitVec.eq_of_toNat_eq hres, hst⟩
    · rintro rfl hb
      obtain ⟨hres, hst⟩ := exec_pow_result hrun hx (power_zero_base hb)
      exact ⟨hx, BitVec.eq_of_toNat_eq hres, hst⟩
  · have hok : ∃ k, powRun W x n = .ok k := by
      by_cases hx : x = 0
      · exact ⟨_, hx ▸ powRun_zero_base W n⟩
      · exact ⟨_, powRun_of_le_one hx hn⟩
    obtain ⟨k, hk⟩ := hok
    exact ⟨k, hk, powRun_no_work hk (.inr hn)⟩

end Sys2Proof.Machine

/-! PROOFS of the family 41_packedratestore: where the field of an index stands (R132), what LOOKUP leaves in range and beyond MAX
(R133, R134, R136), the packed table read back (R137), and the padding that no LOOKUP reads (R138). -/

namespace Sys2Proof.Machine

/-! ## The place of a field -/

/-- The word of an index (R132). -/
theorem wordIndex_eq (bps : Nat) : wordIndex bps = bps / 4 := by
  simp only [wordIndex, offset]; omega

/-- The first byte of an index in its word (R132). -/
theorem byteInWord_eq (bps : Nat) : byteInWord bps = 8 * (bps % 4) := by
  simp only [byteInWord, offset]; omega

/-- The four places of a field in a word (R132). -/
theorem byteInWord_mem (bps : Nat) : byteInWord bps ∈ [0, 8, 16, 24] := by
  rw [byteInWord_eq]
  simp only [List.mem_cons, List.not_mem_nil, or_false]
  omega

/-- The last field starts inside the ROM (R55, R132). -/
theorem max_field_lt {c : Config} (hc : c.wf = true) : 8 * c.max.toNat < 32 * depth c := by
  obtain ⟨_, hdense, _, _⟩ := (wf_iff c).mp hc
  rw [(denseOk_iff c).mp hdense]
  omega

/-- Settles O4: the offset by its definition, the word and the byte by division, and the bound by the dense clause of R55. -/
theorem lookupOffsets : Obligations.LookupOffsets := fun _ hc bps hle =>
  ⟨rfl, rfl, rfl, wordIndex_eq bps, byteInWord_eq bps, byteInWord_mem bps,
    (Nat.mul_comm bps 8).trans_le (Nat.mul_le_mul_left 8 hle), max_field_lt hc⟩

/-! ## What LOOKUP leaves -/

/-- LOOKUP in range: success, and the field plus `RAY` with nothing lost in the register (R133, R134). -/
theorem exec_lookup_inRange {s : State} {a b : Word} (hc : s.cfg.wf = true) (hrun : s.eng = .run .lookup a b)
    (ha : a.toNat ≤ s.cfg.max.toNat) :
    ∃ t, exec .lookup s = .next t ∧ t.result.toNat = field s.cfg a.toNat + RAY ∧ t.status.word = 0x02 := by
  rw [← operandA_run hrun] at ha ⊢
  refine ⟨_, execLookup_inRange hc ha, ?_, word_success⟩
  rw [complete_result, BitVec.toNat_ofNat, Nat.mod_eq_of_lt (rate_lt _ _)]

/-- The field of `bps` as the bytes of R133's address. -/
theorem field_eq_bytes8_at_offset (c : Config) (bps : Nat) :
    field c bps = Spec.bytes8 c.rom (32 * (bps * 8 / 32) + bps * 8 % 32) := by
  rw [field_eq_bytes8]
  exact congrArg (Spec.bytes8 c.rom) (fieldAddress bps).symm

/-- A decoded rate is below `2^90` (R134). -/
theorem rate_lt_two_pow_90 (c : Config) (bps : Nat) : field c bps + RAY < 2 ^ 90 := by
  have hsum : 2 ^ 64 + RAY < 2 ^ 90 := by decide
  exact Nat.lt_trans (Nat.add_lt_add_right (field_lt c bps) RAY) hsum

/-- Settles O30: the value by the bytes of its field, its range by the field's 64 bits, and the frame that of every command. -/
theorem lookupCompletesWithDecodedRate : Obligations.LookupCompletesWithDecodedRate := by
  intro s a b hc hrun ha
  obtain ⟨t, hx, hres, hst⟩ := exec_lookup_inRange hc hrun ha
  have hfield := field_lt s.cfg a.toNat
  refine ⟨t, hx, ?_, ?_, ?_, ?_, hst, (exec_ended hx).eng, exec_frame_full hx⟩
  · rw [hres, field_eq_bytes8_at_offset]
  · omega
  · omega
  · exact hres ▸ rate_lt_two_pow_90 s.cfg a.toNat

/-- Settles O31: of LOOKUP's two outcomes, one is in range with STATUS 0x02, the other beyond MAX with STATUS 0x22. -/
theorem lookupOutOfRangeExactlyBeyondMax : Obligations.LookupOutOfRangeExactlyBeyondMax := by
  intro s a b hc hrun
  obtain ⟨t, hx, hout⟩ := execLookup_outcome hc
  rw [← exec_lookup] at hx
  rw [operandA_run hrun] at hout
  obtain ⟨hst, hle, _⟩ | ⟨hst, hres, hlt⟩ := hout
  · exact ⟨t, hx, by simp [hst, hle], fun hlt => absurd hle (Nat.not_le.mpr hlt), .inr hst, exec_frame_full hx⟩
  · exact ⟨t, hx, by simp [hst, hlt], fun _ => ⟨hres, (exec_ended hx).eng⟩, .inl hst, exec_frame_full hx⟩

/-! ## The packed table read back -/

/-- Bytes that are the big-endian digits of `v` are the number `v`, up to its `n` low bytes. -/
theorem bigEndian_of_digits {m : Memory} {a n v : Nat}
    (h : ∀ j, j < n → (m.read (a + j)).toNat = v >>> (8 * (n - 1 - j)) % 256) : m.bigEndian a n = v % 256 ^ n := by
  induction n generalizing v with
  | zero => rw [Nat.pow_zero, Nat.mod_one]; rfl
  | succ n ih =>
    have hhigh : m.bigEndian a n = v / 256 % 256 ^ n := ih fun j hj => by
      rw [h j (by omega), ← Nat.shiftRight_eq_div_pow v 8, ← Nat.shiftRight_add]
      congr 2; omega
    have hlow : (m.read (a + n)).toNat = v % 256 := by simpa using h n (Nat.lt_succ_self n)
    rw [Memory.bigEndian, hhigh, hlow, Nat.pow_succ', Nat.mod_mul, Nat.mul_comm, Nat.add_comm]

/-- Field `k` of the packed table is the delta of entry `k`, in 64 bits (R54). -/
theorem field_pack (rates : List Nat) (k : Nat) : field (pack rates) k = packedDelta rates k % 2 ^ 64 :=
  bigEndian_of_digits fun _ hj => (congrArg BitVec.toNat (read_pack rates _)).trans (packedByte_toNat rates k hj)

/-- A packable rate is its field plus `RAY`: the delta fits the field and nothing is lost below `RAY` (R54, R134). -/
theorem field_pack_add_RAY {rates : List Nat} (hrates : ∀ r ∈ rates, RAY ≤ r ∧ r < RAY + 2 ^ 64) {k : Nat}
    (hk : k < rates.length) : field (pack rates) k + RAY = rates[k] := by
  obtain ⟨hlo, hhi⟩ := hrates rates[k] (List.getElem_mem hk)
  have hdelta : rates[k] - RAY < 2 ^ 64 := Nat.sub_lt_left_of_lt_add hlo hhi
  rw [field_pack, packedDelta_of_lt hk, Nat.mod_eq_of_lt hdelta, Nat.sub_add_cancel hlo]

/-- Settles O35: the packed table is admitted, its MAX is the last index, and each of its fields decodes to the rate packed. -/
theorem lookupRoundTrip : Obligations.LookupRoundTrip := by
  intro rates s a b hlen hrates hcfg hrun hlt
  have hmax := pack_max hlen
  have hc : s.cfg.wf = true := hcfg ▸ pack_wf hlen (by omega)
  have ha : a.toNat ≤ s.cfg.max.toNat := by rw [hcfg, hmax]; omega
  obtain ⟨t, hx, hres, hst⟩ := exec_lookup_inRange hc hrun ha
  exact ⟨hmax, t, hx, by rw [hres, hcfg, field_pack_add_RAY hrates hlt], hst⟩

/-! ## The padding is never read -/

/-- Beyond MAX LOOKUP raises OUT_OF_RANGE, whatever the table (R131). -/
theorem execLookup_outOfRange {s : State} (h : s.cfg.max.toNat < s.operandA.toNat) :
    execLookup s = .next (raise .outOfRange s) := if_pos h

/-- In range LOOKUP completes with what its one `MemRead` gives it (R135). -/
theorem execLookup_of_memRead {s : State} {delta : Nat} (h : s.operandA.toNat ≤ s.cfg.max.toNat)
    (hm : memRead s.cfg (32 * wordIndex s.operandA.toNat + byteInWord s.operandA.toNat) fieldBytes = some delta) :
    execLookup s = .next (complete (BitVec.ofNat W (delta + RAY)) s) := by
  rw [execLookup, if_neg (Nat.not_lt.mpr h), hm]

/-- `MemRead` depends on the ROM's length and on the bytes it names (R13). -/
theorem memRead_congr {c c' : Config} {addr n : Nat} (hlen : c'.romBytes = c.romBytes)
    (hbytes : ∀ j, j < n → c'.rom.read (addr + j) = c.rom.read (addr + j)) :
    memRead c' addr n = memRead c addr n := by
  have hdepth : depth c' = depth c := congrArg (· / wordBytes) hlen
  rw [memRead, memRead, hdepth, bigEndian_congr hbytes]

/-- LOOKUP commutes with a change of the table that keeps its length and the bytes of the entries `0 .. MAX`. -/
theorem execLookup_withCfg {c : Config} {s t : State} (hmax : c.max = s.cfg.max) (hlen : c.romBytes = s.cfg.romBytes)
    (hbytes : ∀ x, x < 8 * (s.cfg.max.toNat + 1) → c.rom.read x = s.cfg.rom.read x) (h : execLookup s = .next t) :
    execLookup (s.withCfg c) = .next (t.withCfg c) := by
  obtain ⟨hr, hk⟩ | ⟨hr, ⟨delta, hm, hk⟩ | ⟨_, hk⟩⟩ := execLookup_cases s <;> rw [hk] at h <;> cases h
  · exact execLookup_outOfRange (s := s.withCfg c) (hmax ▸ hr)
  · refine execLookup_of_memRead (s := s.withCfg c) (hmax ▸ hr) ((memRead_congr hlen fun j hj => hbytes _ ?_).trans hm)
    rw [operandA_withCfg, fieldAddress]
    simp only [fieldBytes] at hj ⊢
    omega

/-- Settles O36: the field of an index up to MAX ends where the padding begins. -/
theorem paddingNeverRead : Obligations.PaddingNeverRead := fun _ _ _ _ hmax hlen hbytes hx =>
  execLookup_withCfg hmax hlen hbytes hx

end Sys2Proof.Machine

/-! PROOFS of the family 60_exceptions: IllegalCommand within its own CTRL write (R154), and the outcome of a command as a function
of its operands and the constants (R156). -/

namespace Sys2Proof.Machine

/-! ## IllegalCommand -/

/-- While a command runs a register write that is next is dropped (R185). -/
theorem step_regWrite_busy {s : State} {idx : BitVec 3} {v : Word} {rest : List Event} (hc : s.cfg.wf = true)
    (hb : s.status.busy = true) (ho : s.order = .regWrite idx v :: rest) : step s = .next (s.setOrder rest) := by
  rw [step_regWrite hc ho, regWrite_busy (s := s.setOrder rest) hb]

/-- Settles O17: an idle block raises IllegalCommand in the step of the write itself, and a busy one drops the write. -/
theorem illegalCommandAtOnce : Obligations.IllegalCommandAtOnce := by
  refine fun s v rest h ho => ⟨fun hb hpow hlookup => ?_, fun hb => ⟨_, step_regWrite_busy h.config hb ho, rfl⟩⟩
  have hstep := step_illegal hb h.config ho (decode_eq_error hpow hlookup)
  exact ⟨_, hstep, rfl, word_error .illegalCommand, rfl, h.eng_idle hb, rfl, rfl, rfl⟩

/-! ## What the outcome of a command depends on -/

section
variable {s s' t : State} (ha : s'.operandA = s.operandA)
include ha

/-- POW's RESULT and STATUS come from its operands alone (R156). -/
theorem execPow_outcome_congr (hb : s'.operandB = s.operandB) (h : execPow s = .next t) :
    ∃ t', execPow s' = .next t' ∧ t'.result = t.result ∧ t'.status = t.status := by
  obtain ⟨k, hrun, hk⟩ | ⟨_, hrun, hk⟩ := execPow_cases s <;> rw [hk] at h <;> cases h
  · refine ⟨complete (BitVec.ofNat W k.wz) (forgetWork s'), ?_, rfl, rfl⟩
    rw [execPow, ha, hb, hrun]
  · refine ⟨raise .arithmeticOverflow (forgetWork s'), ?_, rfl, rfl⟩
    rw [execPow, ha, hb, hrun]

/-- LOOKUP's come from its operand `a`, MAX and the table (R156). -/
theorem execLookup_outcome_congr (hcfg : s'.cfg = s.cfg) (h : execLookup s = .next t) :
    ∃ t', execLookup s' = .next t' ∧ t'.result = t.result ∧ t'.status = t.status := by
  obtain ⟨hr, hk⟩ | ⟨hr, ⟨_, hm, hk⟩ | ⟨_, hk⟩⟩ := execLookup_cases s <;> rw [hk] at h <;> cases h
  · rw [← ha, ← hcfg] at hr
    exact ⟨_, execLookup_outOfRange hr, rfl, rfl⟩
  · rw [← ha, ← hcfg] at hr hm
    exact ⟨_, execLookup_of_memRead hr hm, rfl, rfl⟩

end

/-- Settles O43: states that run the same command have latched the same operands. -/
theorem earlierErrorsDoNotMatter : Obligations.EarlierErrorsDoNotMatter := by
  intro s s' t i a b hrun hrun' hcfg h
  have ha : s'.operandA = s.operandA := (operandA_run hrun').trans (operandA_run hrun).symm
  have hb : s'.operandB = s.operandB := (operandB_run hrun').trans (operandB_run hrun).symm
  cases i with
  | pow => exact execPow_outcome_congr ha hb h
  | lookup => exact execLookup_outcome_congr ha hcfg.symm h

end Sys2Proof.Machine

/-! PROOFS of the family 70_reset_and_hazards: the Reset event (R180), a register write around a Complete event (R185), and the
completion of every accepted command (R190). -/

namespace Sys2Proof.Machine

/-! ## Reset -/

/-- Settles O9: the step is `resetEvent`, and Complete is not enabled in the idle engine it leaves. -/
theorem resetAbandonsRunningCommand : Obligations.ResetAbandonsRunningCommand := fun _ _ hc ho =>
  ⟨_, step_reset hc ho, rfl, rfl, rfl, word_atReset, rfl, rfl, rfl, rfl, engineTurn_idle rfl⟩

/-! ## The Complete event of a running command -/

/-- In a configuration of R55 every command's Complete event answers a next state. -/
theorem exec_exists_next (i : Instr) {s : State} (hc : s.cfg.wf = true) : ∃ t, exec i s = .next t := by
  cases i with
  | pow => exact execPow_exists_next s
  | lookup => exact execLookup_exists_next hc

section
variable {s : State} {i : Instr} {a b : Word} (h : s.Inv) (hrun : s.eng = .run i a b)
include h hrun

/-- BUSY is set while a command runs (R35). -/
theorem busy_of_run : s.status.busy = true := h.busy.mpr (by simp [hrun])

/-- The engine's turn, given by the order or by its end, is the Complete event of the running command (R39). -/
theorem step_eq_exec (ho : s.order = [] ∨ ∃ rest, s.order = .engine :: rest) :
    step s = exec i (s.setOrder s.order.tail) := by
  obtain ho | ⟨rest, ho⟩ := ho
  · rw [setOrder_tail_of_nil ho, step_nil h.config ho, engineTurn_run hrun]
  · rw [setOrder_tail_of_cons ho, step_engine h.config ho, engineTurn_run (s := s.setOrder rest) hrun]

/-! ## A write on either side of the Complete event -/

/-- A Complete event that is next ends the command and leaves OPA and OPB with the operands it ran on. -/
theorem step_engine_ended (rest : List Event) :
    ∃ t, step (s.setOrder (.engine :: rest)) = .next t ∧ t.Ended ∧ t.Inv ∧ t.opa = a ∧ t.opb = b ∧ t.order = rest := by
  obtain ⟨t, hx⟩ := exec_exists_next i (s := s.setOrder rest) h.config
  obtain ⟨hopa, hopb, _⟩ := exec_frame hx
  obtain ⟨ha, hb⟩ := h.latched i a b hrun
  have hstep := step_eq_exec (h.setOrder (.engine :: rest)) hrun (.inr ⟨rest, rfl⟩)
  exact ⟨t, hstep.trans hx, exec_ended hx, (h.setOrder rest).exec hx, hopa.trans ha, hopb.trans hb,
    (exec_order_received hx).left⟩

/-- A write before the Complete event is dropped, and the run ends as it does without the write (R185). -/
theorem write_then_complete (idx : BitVec 3) (v : Word) :
    ∃ t, runSteps 1 (s.setOrder [.engine]) = .next t ∧
      runSteps 2 (s.setOrder [.regWrite idx v, .engine]) = .next t ∧ t.opa = a ∧ t.opb = b := by
  obtain ⟨t, hstep, _, _, hopa, hopb, _⟩ := step_engine_ended h hrun []
  have hone : runSteps 1 (s.setOrder [.engine]) = .next t := runSteps_succ_of_next 0 hstep
  have hdrop : step (s.setOrder [.regWrite idx v, .engine]) = .next (s.setOrder [.engine]) :=
    step_regWrite_busy (s := s.setOrder [.regWrite idx v, .engine]) h.config (busy_of_run (s := s) h hrun) rfl
  exact ⟨t, hone, (runSteps_succ_of_next 1 hdrop).trans hone, hopa, hopb⟩

/-- A write to OPA after the Complete event finds the block idle and lands (R185). -/
theorem complete_then_write_opa (v : Word) :
    ∃ t, runSteps 2 (s.setOrder [.engine, .regWrite 2 v]) = .next t ∧ t.opa = v ∧ t.opb = b := by
  obtain ⟨u, hstep, hend, hinv, _, hopb, ho⟩ := step_engine_ended h hrun [.regWrite 2 v]
  have hland : step u = .next ((u.setOrder []).setOpa v) := step_wr_opa hinv.config hend.busy ho
  refine ⟨(u.setOrder []).setOpa v, ?_, rfl, hopb⟩
  calc runSteps 2 (s.setOrder [.engine, .regWrite 2 v])
    _ = runSteps 1 u := runSteps_succ_of_next 1 hstep
    _ = .next ((u.setOrder []).setOpa v) := runSteps_succ_of_next 0 hland

end

/-- Settles O18: a busy block drops the write, and the block that the Complete event leaves is idle. -/
theorem writeRacesCompletion : Obligations.WriteRacesCompletion := fun _ _ _ _ idx v h hrun =>
  ⟨fun _ ho => ⟨step_regWrite_busy h.config (busy_of_run h hrun) ho, operandA_run hrun, operandB_run hrun⟩,
    write_then_complete h hrun idx v, complete_then_write_opa h hrun v, fun u _ hslot => regWrite_readOnly hslot v u⟩

/-! ## Every accepted command completes -/

/-- A host transaction leaves a running command running (R185, R33): only the engine's turn and a Reset end it. -/
theorem step_host_keeps_running {s : State} {i : Instr} {a b : Word} {e : Event} {rest : List Event} (h : s.Inv)
    (hrun : s.eng = .run i a b) (ho : s.order = e :: rest) (hreset : e ≠ .reset) (hengine : e ≠ .engine) :
    ∃ u, step s = .next u ∧ u.eng = .run i a b ∧ u.order = rest := by
  cases e with
  | regWrite idx v => exact ⟨_, step_regWrite_busy h.config (busy_of_run h hrun) ho, hrun, rfl⟩
  | regRead idx => exact ⟨_, step_regRead h.config ho, hrun, rfl⟩
  | reset => exact absurd rfl hreset
  | engine => exact absurd rfl hengine

/-- With no Reset to come a running command reaches its Complete event: by induction on the events to come, each of which is
the engine's turn or a host transaction that leaves the command running. -/
theorem runSteps_to_engine {s : State} {i : Instr} {a b : Word} (h : s.Inv) (hrun : s.eng = .run i a b)
    (hno : Event.reset ∉ s.order) :
    ∃ k u, k ≤ s.order.length ∧ runSteps k s = .next u ∧ u.Inv ∧ u.eng = .run i a b ∧ u.cfg = s.cfg ∧
      (u.order = [] ∨ ∃ rest, u.order = .engine :: rest) := by
  induction ho : s.order generalizing s with
  | nil => exact ⟨0, s, Nat.zero_le _, rfl, h, hrun, rfl, .inl ho⟩
  | cons e rest ih =>
    by_cases he : e = .engine
    · exact ⟨0, s, Nat.zero_le _, rfl, h, hrun, rfl, .inr ⟨rest, he ▸ ho⟩⟩
    · obtain ⟨hne, hrest⟩ := List.ne_and_not_mem_of_not_mem_cons (ho ▸ hno)
      obtain ⟨u, hstep, hurun, huo⟩ := step_host_keeps_running h hrun ho hne.symm he
      have hu := stepKeepsInvariant s u h hstep
      obtain ⟨k, w, hk, hw, hinv, hwrun, hcfg, hturn⟩ := ih hu hurun (huo ▸ hrest) huo
      exact ⟨k + 1, w, Nat.succ_le_succ hk, (runSteps_succ_of_next k hstep).trans hw, hinv, hwrun,
        hcfg.trans (step_cfg hstep), hturn⟩

/-- Settles O44: the command reaches its Complete event, whose RESULT and STATUS come from the latched operands and the
constants alone (`earlierErrorsDoNotMatter`), so they are those that `exec` gives at the start. -/
theorem acceptedCommandCompletes : Obligations.AcceptedCommandCompletes := by
  intro s i a b h hrun hno
  obtain ⟨k, w, hk, hw, hinv, hwrun, hcfg, hturn⟩ := runSteps_to_engine h hrun hno
  obtain ⟨u, hx⟩ := exec_exists_next i h.config
  obtain ⟨t, hxt, hresult, hstatus⟩ :=
    earlierErrorsDoNotMatter s (w.setOrder w.order.tail) u i a b hrun hwrun hcfg.symm hx
  have hstep : step w = .next t := (step_eq_exec hinv hwrun hturn).trans hxt
  have hend : t.Ended := exec_ended hxt
  refine ⟨k + 1, t, u, Nat.succ_le_succ hk, ?_, hx, hend.eng, hend.done, hresult, hstatus⟩
  exact (runSteps_add 1 hw).trans (runSteps_succ_of_next 0 hstep)

end Sys2Proof.Machine
